-- ==== Sys2Proof/Word.lean ====
section
/-! DEFINITION. The words the block handles (R6's widths) and the plain data its operands are made of: eight booleans,
the 8×8 boolean matrix, the `init` mode, and one frame of the Register Channel. -/

namespace Sys2Proof

/-- `WORD_WIDTH`: one command word, delivered whole (R6, R43). -/
abbrev Word := BitVec 32

/-- `VALUE_WIDTH` and `OPERAND_WIDTH`: a register value, an operand field, one byte on the channel (R6). -/
abbrev Byte := BitVec 8

/-- `ADDR_WIDTH`: a device register address (R6, R40). -/
abbrev Addr := BitVec 4

/-- The eight booleans of one row, `v0` at index 0 (R64, R81). -/
structure BoolVec where
  v0 : Bool
  v1 : Bool
  v2 : Bool
  v3 : Bool
  v4 : Bool
  v5 : Bool
  v6 : Bool
  v7 : Bool
  deriving DecidableEq, Repr

/-- The 8×8 boolean matrix: row index = digit index, column index = bit position (R11, R82). -/
structure BoolMatrix where
  m0 : BoolVec
  m1 : BoolVec
  m2 : BoolVec
  m3 : BoolVec
  m4 : BoolVec
  m5 : BoolVec
  m6 : BoolVec
  m7 : BoolVec
  deriving DecidableEq, Repr

/-- The mode of `init` (R116). -/
inductive InitMode where
  | none
  | raw
  | bcd
  deriving DecidableEq, Repr

/-- One register write on the channel: a 4-bit address and an 8-bit value (R11, R41). -/
structure Frame where
  addr : Addr
  value : Byte
  deriving DecidableEq, Repr

end Sys2Proof
end

