-- ==== Sys2Proof/Config.lean ====
section
/-! DEFINITION. What is fixed for the machine: the parameters of R6 that a model may take as arguments (R154, D8, D39),
with the spec's values as their defaults. No free value is needed: the spec leaves no instruction's result open. -/

namespace Sys2Proof

/-- `BCD_INT_ORDER` (R6, R93): which digit index gets the ones digit of `display_bcd_int`. -/
inductive BcdIntOrder where
  /-- the normative setting: ones at digit index 0 (R92, C1) -/
  | lsdAt0
  /-- the named alternative: ones at digit index `segments - 1` (R93) -/
  | msdAt0
  deriving DecidableEq, Repr

/-- The address map (R27), the symbol and settings literals (R6, R29) and the digit order (R93), each with the spec's
value as its default. DESIGN CHOICE of the spec, D8 and D39: the literals are unaudited (log entry 10). -/
structure Params where
  /-- address of digit 0; digit `i` is at this address plus `i` (R27, R96) -/
  digit0Addr : Addr := 0x1
  decodeModeAddr : Addr := 0x9
  intensityAddr : Addr := 0xA
  scanLimitAddr : Addr := 0xB
  powerAddr : Addr := 0xC
  displayTestAddr : Addr := 0xF
  /-- the MINUS symbol (R29) -/
  minus : Byte := 0x0A
  powerOn : Byte := 0xFF
  powerOff : Byte := 0x00
  initScanLimit : Byte := 0x04
  initIntensity : Byte := 0x0F
  initDecode : Byte := 0x0F
  bcdIntOrder : BcdIntOrder := .lsdAt0
  deriving DecidableEq, Repr

/-- The parameters of the machine this model runs: every one at the spec's default. -/
def Config.params : Params := {}

/-- `NUM_DIGITS` (R6): digit indices 0 to 7. -/
def Config.numDigits : Nat := 8

end Sys2Proof
end

