-- ==== Sys2Proof/Syntax.lean ====
section
/-! DEFINITION. The commands of the block: one constructor per row of spec/opcode_table.json, operands in the source's
order (R63, R69). -/

namespace Sys2Proof

/-- The 13 commands of R63. Operand bytes are the unsigned header fields A and B (R64); the integer payloads are the
exact integers `sext_32(P0)`. -/
inductive Instr where
  /-- R80 -/
  | displayByte (row value : Byte)
  /-- R81 -/
  | displayVector (row : Byte) (vector : BoolVec)
  /-- R82 -/
  | displayMatrix (matrix : BoolMatrix)
  /-- R90 -/
  | displayBcdDigit (digit value : Byte)
  /-- R92: `value` is the int32 payload -/
  | displayBcdInt (value : Int) (segments : Byte)
  /-- R102: `scaled` is the int32 payload, the value times `10^decimals` (R64) -/
  | displayFixed (scaled : Int) (decimals segments : Byte)
  /-- R110 -/
  | setDecodeMode (byte : Byte)
  /-- R111 -/
  | setIntensity (byte : Byte)
  /-- R112 -/
  | setScanLimit (byte : Byte)
  /-- R113 -/
  | setPower (on : Bool)
  /-- R114 -/
  | setDisplayTest (on : Bool)
  /-- R115 -/
  | clear
  /-- R116 -/
  | init (mode : InitMode)
  deriving DecidableEq, Repr

end Sys2Proof
end

