-- ==== Sys2Proof/WellFormed.lean ====
section
/-! DEFINITION. Which commands have an encoding. The only operand whose Lean type is wider than its field is the integer
payload, 32 bits of two's complement (R6 `INT_WIDTH`, R64); operands outside a command's own range are well formed: the
command rejects them with OUT_OF_RANGE when it runs (R64). -/

namespace Sys2Proof

/-- `v` is in `[-2^31, 2^31 - 1]` (R64). -/
def fitsInt32 (v : Int) : Bool := decide (-2147483648 ≤ v) && decide (v ≤ 2147483647)

/-- The command has an encoding (R64, R69). -/
def Instr.wellFormed : Instr → Bool
  | .displayByte _ _ => true
  | .displayVector _ _ => true
  | .displayMatrix _ => true
  | .displayBcdDigit _ _ => true
  | .displayBcdInt value _ => fitsInt32 value
  | .displayFixed scaled _ _ => fitsInt32 scaled
  | .setDecodeMode _ => true
  | .setIntensity _ => true
  | .setScanLimit _ => true
  | .setPower _ => true
  | .setDisplayTest _ => true
  | .clear => true
  | .init _ => true

end Sys2Proof
end

