-- ==== Sys2Proof/Decode.lean ====
section
/-! DEFINITION. Decoding, total on any command words and rejecting by name (R60 to R68), and after it the encoder, the
assembler's table (R69) and the host's reading of one opcode-table word. -/

namespace Sys2Proof

/-! ## Header fields (R61) -/

/-- OPC, bits [31:24]. -/
def headerOpc (h : Word) : Byte := h.extractLsb' 24 8

/-- A, bits [23:16]. -/
def headerA (h : Word) : Byte := h.extractLsb' 16 8

/-- B, bits [15:8]. -/
def headerB (h : Word) : Byte := h.extractLsb' 8 8

/-- R, bits [7:0]. -/
def headerR (h : Word) : Byte := h.extractLsb' 0 8

/-- The header word of the four fields (R61). -/
def headerWord (opc a b r : Byte) : Word := opc ++ a ++ b ++ r

/-! ## The opcode map (R63) -/

/-- The assigned operation codes of R63. -/
inductive Opcode where
  | displayByte
  | displayVector
  | displayMatrix
  | displayBcdDigit
  | displayBcdInt
  | displayFixed
  | setDecodeMode
  | setIntensity
  | setScanLimit
  | setPower
  | setDisplayTest
  | clear
  | init
  deriving DecidableEq, Repr

/-- R63's rows, in its order. -/
def opcodeMap : List (Byte × Opcode) :=
  [ (0x01, .displayByte), (0x02, .displayVector), (0x03, .displayMatrix), (0x04, .displayBcdDigit),
    (0x05, .displayBcdInt), (0x06, .displayFixed), (0x10, .setDecodeMode), (0x11, .setIntensity),
    (0x12, .setScanLimit), (0x13, .setPower), (0x14, .setDisplayTest), (0x18, .clear), (0x19, .init) ]

/-- The command an operation code stands for; none for an unassigned code (R63, R66 item 1). -/
def opcodeOf (opc : Byte) : Option Opcode :=
  (opcodeMap.find? fun row => row.1 == opc).map Prod.snd

/-- The operation code of a command (R63). -/
def opcodeCode : Opcode → Byte
  | .displayByte => 0x01
  | .displayVector => 0x02
  | .displayMatrix => 0x03
  | .displayBcdDigit => 0x04
  | .displayBcdInt => 0x05
  | .displayFixed => 0x06
  | .setDecodeMode => 0x10
  | .setIntensity => 0x11
  | .setScanLimit => 0x12
  | .setPower => 0x13
  | .setDisplayTest => 0x14
  | .clear => 0x18
  | .init => 0x19

/-- Command length in words, from OPC alone, assigned or not (R68). -/
def lengthOfOpc (opc : Byte) : Nat :=
  if opc = 0x03#8 then 3 else if opc = 0x05#8 then 2 else if opc = 0x06#8 then 2 else 1

/-! ## Operand assembly (R64) -/

/-- `Σ v_i · 2^i`: bit `i` = element `i`, index 0 the least significant (R69, R81). -/
def packVector (v : BoolVec) : Byte :=
  BitVec.ofNat 8 (v.v0.toNat + v.v1.toNat * 2 + v.v2.toNat * 4 + v.v3.toNat * 8 + v.v4.toNat * 16
    + v.v5.toNat * 32 + v.v6.toNat * 64 + v.v7.toNat * 128)

/-- `vector[i] = B[i]` (R64). -/
def unpackVector (b : Byte) : BoolVec :=
  { v0 := b.getLsbD 0, v1 := b.getLsbD 1, v2 := b.getLsbD 2, v3 := b.getLsbD 3,
    v4 := b.getLsbD 4, v5 := b.getLsbD 5, v6 := b.getLsbD 6, v7 := b.getLsbD 7 }

/-- Byte `j` of a payload word: bits [8j+7 : 8j] (R64, matrix payload). -/
def payloadByte (p : Word) (j : Nat) : Byte := p.extractLsb' (8 * j) 8

/-- The matrix of the two payload words: row `r` is the byte `M_r`, rows 0..3 in P0 and 4..7 in P1 (R64). -/
def unpackMatrix (p0 p1 : Word) : BoolMatrix :=
  { m0 := unpackVector (payloadByte p0 0), m1 := unpackVector (payloadByte p0 1)
    m2 := unpackVector (payloadByte p0 2), m3 := unpackVector (payloadByte p0 3)
    m4 := unpackVector (payloadByte p1 0), m5 := unpackVector (payloadByte p1 1)
    m6 := unpackVector (payloadByte p1 2), m7 := unpackVector (payloadByte p1 3) }

/-- The four row bytes of a payload word, the lowest row in the least significant byte (R64). -/
def packRows (a b c d : BoolVec) : Word := packVector d ++ packVector c ++ packVector b ++ packVector a

/-- A boolean operand: 0 is false, 1 is true, any other value is no boolean (R64, D17). -/
def boolOperand (b : Byte) : Option Bool :=
  if b = 0#8 then some false else if b = 1#8 then some true else none

/-- The mode operand of `init`: 0, 1 or 2 (R65, D18). -/
def modeOperand (a : Byte) : Option InitMode :=
  if a = 0#8 then some .none else if a = 1#8 then some .raw else if a = 2#8 then some .bcd else none

/-! ## Decoding -/

/-- Why a header is ILLEGAL: the first item of R66 that holds. The block does not show which (R133). -/
inductive IllegalReason where
  /-- R66 item 1 -/
  | unassignedOpcode
  /-- R66 item 2 (R62) -/
  | reservedNotZero
  /-- R66 item 3 (R65) -/
  | operandConstraint
  deriving DecidableEq, Repr

/-- What the words at the command word pointer are. -/
inductive Decoded where
  /-- a command of R63 with its operands -/
  | command (i : Instr)
  /-- an ILLEGAL command of `len` words (R66, R67) -/
  | illegal (why : IllegalReason) (len : Nat)
  /-- a header whose payload words are not all there: `len` words are needed (R68, R158) -/
  | incomplete (len : Nat)
  /-- no header word: the stream is exhausted at a command boundary (R21) -/
  | exhausted
  deriving DecidableEq, Repr

/-- The command of an assigned opcode with the fields A and B and the payload words, when they meet R65's constraints. -/
def buildInstr (o : Opcode) (a b : Byte) (payload : List Word) : Option Instr :=
  match o with
  | .displayByte => some (.displayByte a b)
  | .displayVector => some (.displayVector a (unpackVector b))
  | .displayMatrix =>
    if a = 0#8 ∧ b = 0#8 then some (.displayMatrix (unpackMatrix (payload.getD 0 0) (payload.getD 1 0))) else none
  | .displayBcdDigit => some (.displayBcdDigit a b)
  | .displayBcdInt => if b = 0#8 then some (.displayBcdInt (payload.getD 0 0).toInt a) else none
  | .displayFixed => some (.displayFixed (payload.getD 0 0).toInt b a)
  | .setDecodeMode => if a = 0#8 then some (.setDecodeMode b) else none
  | .setIntensity => if a = 0#8 then some (.setIntensity b) else none
  | .setScanLimit => if a = 0#8 then some (.setScanLimit b) else none
  | .setPower => if a = 0#8 then (boolOperand b).map .setPower else none
  | .setDisplayTest => if a = 0#8 then (boolOperand b).map .setDisplayTest else none
  | .clear => if a = 0#8 ∧ b = 0#8 then some .clear else none
  | .init => if b = 0#8 then (modeOperand a).map .init else none

/-- Decode a complete command: a header and its payload words (R66, R67). -/
def decodeComplete (h : Word) (payload : List Word) : Decoded :=
  match opcodeOf (headerOpc h) with
  | none => .illegal .unassignedOpcode (lengthOfOpc (headerOpc h))
  | some o =>
    if headerR h = 0#8 then
      match buildInstr o (headerA h) (headerB h) payload with
      | some i => .command i
      | none => .illegal .operandConstraint (lengthOfOpc (headerOpc h))
    else .illegal .reservedNotZero (lengthOfOpc (headerOpc h))

/-- Decode the words from the command word pointer on: the header gives the length, and nothing is validated before all
payload words are there (R67, R68). -/
def decode (ws : List Word) : Decoded :=
  match ws with
  | [] => .exhausted
  | h :: payload =>
    if payload.length + 1 < lengthOfOpc (headerOpc h) then .incomplete (lengthOfOpc (headerOpc h))
    else decodeComplete h payload

/-! ## Encoding (R69) -/

/-- The opcode of a command (R63). -/
def opcodeOfInstr : Instr → Opcode
  | .displayByte _ _ => .displayByte
  | .displayVector _ _ => .displayVector
  | .displayMatrix _ => .displayMatrix
  | .displayBcdDigit _ _ => .displayBcdDigit
  | .displayBcdInt _ _ => .displayBcdInt
  | .displayFixed _ _ _ => .displayFixed
  | .setDecodeMode _ => .setDecodeMode
  | .setIntensity _ => .setIntensity
  | .setScanLimit _ => .setScanLimit
  | .setPower _ => .setPower
  | .setDisplayTest _ => .setDisplayTest
  | .clear => .clear
  | .init _ => .init

/-- Command length in words (R68). -/
def commandLength (i : Instr) : Nat := lengthOfOpc (opcodeCode (opcodeOfInstr i))

/-- 1 for true, 0 for false (R64). -/
def encodeBool (on : Bool) : Byte := if on then 1 else 0

/-- 0 = NONE, 1 = RAW, 2 = BCD (R116). -/
def encodeMode : InitMode → Byte
  | .none => 0
  | .raw => 1
  | .bcd => 2

/-- Field A of a command's header (R63, R69). -/
def encodeA : Instr → Byte
  | .displayByte row _ => row
  | .displayVector row _ => row
  | .displayMatrix _ => 0
  | .displayBcdDigit digit _ => digit
  | .displayBcdInt _ segments => segments
  | .displayFixed _ _ segments => segments
  | .setDecodeMode _ => 0
  | .setIntensity _ => 0
  | .setScanLimit _ => 0
  | .setPower _ => 0
  | .setDisplayTest _ => 0
  | .clear => 0
  | .init mode => encodeMode mode

/-- Field B of a command's header (R63, R69). -/
def encodeB : Instr → Byte
  | .displayByte _ value => value
  | .displayVector _ vector => packVector vector
  | .displayMatrix _ => 0
  | .displayBcdDigit _ value => value
  | .displayBcdInt _ _ => 0
  | .displayFixed _ decimals _ => decimals
  | .setDecodeMode byte => byte
  | .setIntensity byte => byte
  | .setScanLimit byte => byte
  | .setPower on => encodeBool on
  | .setDisplayTest on => encodeBool on
  | .clear => 0
  | .init _ => 0

/-- The payload words of a command (R64, R69). -/
def encodePayload : Instr → List Word
  | .displayByte _ _ => []
  | .displayVector _ _ => []
  | .displayMatrix m => [packRows m.m0 m.m1 m.m2 m.m3, packRows m.m4 m.m5 m.m6 m.m7]
  | .displayBcdDigit _ _ => []
  | .displayBcdInt value _ => [BitVec.ofInt 32 value]
  | .displayFixed scaled _ _ => [BitVec.ofInt 32 scaled]
  | .setDecodeMode _ => []
  | .setIntensity _ => []
  | .setScanLimit _ => []
  | .setPower _ => []
  | .setDisplayTest _ => []
  | .clear => []
  | .init _ => []

/-- The words of a well-formed command: header, then payload (R60, R69). -/
def encode (i : Instr) : List Word :=
  headerWord (opcodeCode (opcodeOfInstr i)) (encodeA i) (encodeB i) 0#8 :: encodePayload i

/-! ## The assembler's table (R69) -/

/-- The symbols the assembler accepts for values (R69). -/
inductive AsmSymbol where
  | minus | e | h | l | p | blank
  | modeNone | modeRaw | modeBcd
  | on | off
  deriving DecidableEq, Repr

/-- The value of an assembler symbol (R29, R69). -/
def asmSymbolValue : AsmSymbol → Int
  | .minus => 0x0A
  | .e => 0x0B
  | .h => 0x0C
  | .l => 0x0D
  | .p => 0x0E
  | .blank => 0x0F
  | .modeNone => 0
  | .modeRaw => 1
  | .modeBcd => 2
  | .on => 1
  | .off => 0

/-- One operand as the assembler reads it: a number, a symbol, a bracketed list, or a decimal number given as the
quotient `num / den` (R69). -/
inductive AsmOperand where
  | number (n : Int)
  | symbol (s : AsmSymbol)
  | list (xs : List Int)
  | decimal (num : Int) (den : Nat)
  deriving DecidableEq, Repr

/-- The value of an operand written as a number or as a symbol. DESIGN CHOICE (log entry 15): R69 does not say in which
positions a symbol may stand for a value; here every operand read as a number takes every symbol, an item of a list takes
none, and `set_power`, `set_display_test` and `init` take just the words of their own lines in R69's table. -/
def asmValue : AsmOperand → Option Int
  | .number n => some n
  | .symbol s => some (asmSymbolValue s)
  | .list _ => none
  | .decimal _ _ => none

/-- An operand that stands for an 8-bit field: a number or a symbol (`asmValue`). -/
def asmByte (o : AsmOperand) : Option Byte :=
  match asmValue o with
  | some n => if 0 ≤ n ∧ n ≤ 255 then some (BitVec.ofInt 8 n) else none
  | none => none

/-- An operand that stands for a 32-bit signed payload: a number or a symbol (`asmValue`). -/
def asmInt32 (o : AsmOperand) : Option Int :=
  match asmValue o with
  | some n => if fitsInt32 n then some n else none
  | none => none

/-- `value · 10^decimals`, which must be an integer and fit 32 bits (R69). The value is a number, a decimal number, or, as
everywhere (`asmValue`, log entry 15), a symbol. -/
def asmScaled (decimals : Byte) (o : AsmOperand) : Option Int :=
  match o with
  | .decimal num den =>
    let v := num * 10 ^ decimals.toNat
    if den ≠ 0 ∧ v % (den : Int) = 0 ∧ fitsInt32 (v / (den : Int)) then some (v / (den : Int)) else none
  | .number n => asmInt32 (.number (n * 10 ^ decimals.toNat))
  | .symbol s => asmInt32 (.number (asmSymbolValue s * 10 ^ decimals.toNat))
  | .list _ => none

/-- A list of zeros and ones as the booleans of a vector (R69). -/
def asmVector : AsmOperand → Option BoolVec
  | .list [a, b, c, d, e, f, g, h] =>
    if [a, b, c, d, e, f, g, h].all (fun x => x == 0 || x == 1) then
      some { v0 := a == 1, v1 := b == 1, v2 := c == 1, v3 := d == 1, v4 := e == 1, v5 := f == 1, v6 := g == 1, v7 := h == 1 }
    else none
  | _ => none

/-- A list of eight row bytes as a matrix (R69). -/
def asmMatrix : AsmOperand → Option BoolMatrix
  | .list [a, b, c, d, e, f, g, h] =>
    if [a, b, c, d, e, f, g, h].all (fun x => decide (0 ≤ x) && decide (x ≤ 255)) then
      some { m0 := unpackVector (BitVec.ofInt 8 a), m1 := unpackVector (BitVec.ofInt 8 b)
             m2 := unpackVector (BitVec.ofInt 8 c), m3 := unpackVector (BitVec.ofInt 8 d)
             m4 := unpackVector (BitVec.ofInt 8 e), m5 := unpackVector (BitVec.ofInt 8 f)
             m6 := unpackVector (BitVec.ofInt 8 g), m7 := unpackVector (BitVec.ofInt 8 h) }
    else none
  | _ => none

/-- One line of R69's table: mnemonic and operands in the source's order, to a command. -/
def assemble (o : Opcode) (operands : List AsmOperand) : Option Instr :=
  match o, operands with
  | .displayByte, [row, value] => do return .displayByte (← asmByte row) (← asmByte value)
  | .displayVector, [row, bits] => do return .displayVector (← asmByte row) (← asmVector bits)
  | .displayMatrix, [rows] => do return .displayMatrix (← asmMatrix rows)
  | .displayBcdDigit, [digit, value] => do return .displayBcdDigit (← asmByte digit) (← asmByte value)
  | .displayBcdInt, [value, segments] => do return .displayBcdInt (← asmInt32 value) (← asmByte segments)
  | .displayFixed, [value, decimals, segments] => do
    let d ← asmByte decimals
    return .displayFixed (← asmScaled d value) d (← asmByte segments)
  | .setDecodeMode, [b] => do return .setDecodeMode (← asmByte b)
  | .setIntensity, [b] => do return .setIntensity (← asmByte b)
  | .setScanLimit, [b] => do return .setScanLimit (← asmByte b)
  | .setPower, [.symbol .on] => some (.setPower true)
  | .setPower, [.symbol .off] => some (.setPower false)
  | .setDisplayTest, [.symbol .on] => some (.setDisplayTest true)
  | .setDisplayTest, [.symbol .off] => some (.setDisplayTest false)
  | .clear, [] => some .clear
  | .init, [.symbol .modeNone] => some (.init .none)
  | .init, [.symbol .modeRaw] => some (.init .raw)
  | .init, [.symbol .modeBcd] => some (.init .bcd)
  | _, _ => none

/-- The mnemonic of a command: the source's function name (R63, R69). -/
def mnemonicOf : Opcode → String
  | .displayByte => "display_byte"
  | .displayVector => "display_vector"
  | .displayMatrix => "display_matrix"
  | .displayBcdDigit => "display_bcd_digit"
  | .displayBcdInt => "display_bcd_int"
  | .displayFixed => "display_fixed"
  | .setDecodeMode => "set_decode_mode"
  | .setIntensity => "set_intensity"
  | .setScanLimit => "set_scan_limit"
  | .setPower => "set_power"
  | .setDisplayTest => "set_display_test"
  | .clear => "clear"
  | .init => "init"

/-! ## One word of the opcode table, as the host numbers its bits -/

/-- Word `j` of an instruction whose bits are `w`: bits [32j+31 : 32j] of its `nbits` bits, zeros above them. -/
def tableWord (nbits w j : Nat) : Word := BitVec.ofNat 32 ((w % 2 ^ nbits) / 2 ^ (32 * j))

/-- The words of that instruction, exactly as many as its header's length (R68). -/
def tableWords (nbits w : Nat) : List Word :=
  (List.range (lengthOfOpc (headerOpc (tableWord nbits w 0)))).map (tableWord nbits w)

/-- The instruction this decoder reads from a word of spec/opcode_table.json. -/
def decodeTableWord (nbits w : Nat) : Option Instr :=
  match decode (tableWords nbits w) with
  | .command i => some i
  | .illegal _ _ => none
  | .incomplete _ => none
  | .exhausted => none

end Sys2Proof
end

