-- ==== Sys2Proof/Machine/State.lean ====
section
/-! DEFINITION. The state of the block and of the observation over it (R32), as plain data; the reasons a step can stop;
the state after power-up and reset. -/

namespace Sys2Proof.Machine

/-- The device register image `D` (R26): the written entries as (address, value) pairs, addresses strictly rising and
below 16. An address that is not listed is *unwritten* and has no value (log entry 4). -/
abbrev Memory := List Host.Cell

/-- One operation on the Register Channel (R41, R142). -/
inductive ChannelOp where
  | beginFrame
  | transferByte (b : Byte)
  | endFrame
  deriving DecidableEq, Repr

/-- The sequencer: R25's IDLE and BUSY, and the BUSY-waiting of R158, which R25's list leaves out (log entry 7). -/
inductive Sequencer where
  /-- no command in progress -/
  | idle
  /-- BUSY, waiting for payload: the header at `W[WP]` is taken, its payload words are not all there, and nothing of it is
  validated or emitted (R68, R158) -/
  | waiting
  /-- `cmd` is decoded and validated, and `k` of its frames have been emitted -/
  | busy (cmd : Instr) (k : Nat)
  deriving DecidableEq, Repr

/-- Where the host restarts its stream after a block reset: its own choice (R150, R162). -/
inductive Restart where
  /-- at `W[0]` -/
  | fromStart
  /-- at the word after the last complete command, which is `W[WP]` -/
  | afterLastCommand
  deriving DecidableEq, Repr

/-- What the host and the channel do during one step of the block. DESIGN CHOICE (log entry 1): the spec leaves these
open (R152, R158, R159), so the state holds them as plain data and a statement over every state admits every choice. -/
inductive EnvEvent where
  /-- nothing disturbs the command -/
  | quiet
  /-- the host's payload words come later than this step, so the block is seen waiting for them (R158); nothing where no
  payload is awaited -/
  | late
  /-- the transfer after `frames` more frames takes long, so the block is seen BUSY at that point -/
  | hold (frames : Nat)
  /-- the channel completes `frames` more frames and the transfer after them never completes (R159) -/
  | stall (frames : Nat)
  /-- the host resets the block after `frames` more frames (R152) and restarts its stream where it chooses (R162) -/
  | reset (frames : Nat) (restart : Restart)
  deriving DecidableEq, Repr

/-- The complete state of R32, the host's command words (R21), the operations on the channel (R41), and the model's own
`env` (log entry 1). -/
structure State where
  /-- the host's command words `W[0..n-1]` (R21) -/
  stream : List Word
  /-- `WP`, the index of the next header word (R21) -/
  wp : Nat
  /-- STATUS (R22): CODE [3:0], zeros [7:4], STEPMASK [15:8] -/
  status : BitVec 16
  /-- the sequencer (R25, R158) -/
  seq : Sequencer
  /-- the device register image `D[0..15]` (R26) -/
  dev : Memory
  /-- the frame trace, oldest first (R49) -/
  trace : List Frame
  /-- every operation of a completed frame on the Register Channel, oldest first (R41, log entry 3) -/
  channel : List ChannelOp
  /-- the model's own: what the host and the channel do during the coming steps, one event a step (log entry 1) -/
  env : List EnvEvent
  deriving DecidableEq, Repr

/-- Why there is no further step. None of these is an error of a command: errors are STATUS codes (R130). -/
inductive Fault where
  /-- raised by `step` in IDLE with `WP = n`: the run has ended (R161). Safe: no step is invented. -/
  | runEnded
  /-- raised by `step` in BUSY-waiting when the stream has ended in the middle of the command: stuck (R158, D25). Safe: no
  step is invented. -/
  | incompleteCommand
  /-- raised by `step` in BUSY when the transfer in progress never completes: stuck (R159, U7). Safe: no step is invented. -/
  | stalledTransfer
  deriving DecidableEq, Repr

/-- Why a command is given no meaning. -/
inductive Refusal where
  /-- an instruction without a meaning in this model, by its mnemonic; no arm of `exec` answers so now. Safe. -/
  | notModelled (mnemonic : String)
  /-- raised by `exec` in BUSY and BUSY-waiting: a command is accepted only in IDLE (R25, R162). `step` never asks for
  that. Safe: the model refuses. -/
  | sequencerBusy
  deriving DecidableEq, Repr

/-- Power-up and reset at the start of a run (R32, R150, R151): STATUS = 0x0000, IDLE, `WP` = 0, every entry of `D`
unwritten, nothing emitted; no command words yet and nothing scheduled outside (log entries 1 and 2). -/
def State.reset : State where
  stream := []
  wp := 0
  status := 0x0000
  seq := .idle
  dev := []
  trace := []
  channel := []
  env := []

end Sys2Proof.Machine
end

