-- ==== Sys2Proof/Machine/Flags.lean ====
section
/-! DEFINITION. STATUS, the block's only flag state (R22, R23): its codes, its layout, and the step mask of the aggregate
commands. -/

namespace Sys2Proof.Machine

/-- The result codes of R23. `transportError` is reserved and never produced (R135). -/
inductive ResultCode where
  | ok
  | outOfRange
  | stepFailed
  | overflow
  | illegal
  | transportError
  deriving DecidableEq, Repr

/-- STATUS.CODE of a result (R23). -/
def codeBits : ResultCode → BitVec 4
  | .ok => 0x0
  | .outOfRange => 0x1
  | .stepFailed => 0x2
  | .overflow => 0x3
  | .illegal => 0x4
  | .transportError => 0x5

/-- STATUS as `Finish(code, mask)` writes it: STEPMASK, four zeros, CODE (R22, R138). -/
def packStatus (code : ResultCode) (mask : Byte) : BitVec 16 := mask ++ 0#4 ++ codeBits code

/-- STATUS bits [3:0] (R22). -/
def statusCode (st : BitVec 16) : BitVec 4 := st.extractLsb' 0 4

/-- STATUS bits [7:4], always 0 (R22). -/
def statusReserved (st : BitVec 16) : BitVec 4 := st.extractLsb' 4 4

/-- STATUS bits [15:8] (R22). -/
def statusStepMask (st : BitVec 16) : Byte := st.extractLsb' 8 8

/-- STEPMASK of an aggregate command: bit `k` = 1 if step `k` failed (R22). -/
def stepMask : List Bool → Byte
  | [] => 0
  | failed :: later => (stepMask later <<< 1) ||| (if failed then 1 else 0)

end Sys2Proof.Machine
end

