-- ==== Sys2Proof/Machine/Ops.lean ====
section
/-! DEFINITION. The named operations every command is made of: the device register image, `EmitFrame` (R41), `Finish`
(R138), `raise` (R9, R136), the block reset (R150 to R152), and the run of a command's frames under what the host and the
channel do (R25, R152, R159). -/

namespace Sys2Proof.Machine

/-! ## The device register image (R26) -/

/-- The value at address `a`; none where the entry is unwritten. -/
def Memory.read : Memory → Addr → Option Byte
  | [], _ => none
  | c :: rest, a => if c.1 = a.toNat then some c.2 else Memory.read rest a

/-- `D[a] <- v`, keeping the entries in rising order and changing no other entry (R26). -/
def Memory.write : Memory → Addr → Byte → Memory
  | [], a, v => [(a.toNat, v)]
  | c :: rest, a, v =>
    if a.toNat < c.1 then (a.toNat, v) :: c :: rest
    else if a.toNat = c.1 then (a.toNat, v) :: rest
    else c :: Memory.write rest a v

/-- Every listed address is at least `lo`, below 16, and below the next one. -/
def Memory.wfFrom : Nat → Memory → Bool
  | _, [] => true
  | lo, c :: rest => decide (lo ≤ c.1) && decide (c.1 < 16) && Memory.wfFrom (c.1 + 1) rest

/-- The canonical form: addresses strictly rising and below 16, so equal images are equal lists (log entry 4). -/
def Memory.wf (m : Memory) : Bool := Memory.wfFrom 0 m

/-! ## EmitFrame (R41) -/

/-- What one frame does on the channel, in order: the address byte is the 4-bit address with zeros above it (R41, R42). -/
def frameOps (f : Frame) : List ChannelOp :=
  [.beginFrame, .transferByte (f.addr.setWidth 8), .transferByte f.value, .endFrame]

/-- `EmitFrame(a, v)` (R41). -/
def emitFrame (f : Frame) (s : State) : State :=
  { s with
    channel := s.channel ++ frameOps f
    dev := s.dev.write f.addr f.value
    trace := s.trace ++ [f] }

/-- Frames emitted one after the other, each complete before the next begins (R49). -/
def emitAll : List Frame → State → State
  | [], s => s
  | f :: later, s => emitAll later (emitFrame f s)

/-! ## Finish, raise and reset -/

/-- `Finish(code, mask)` of a command of `len` words (R138): the completion of every command, with or without error. -/
def finish (code : ResultCode) (mask : Byte) (len : Nat) (s : State) : State :=
  { s with
    status := packStatus code mask
    wp := s.wp + len
    seq := .idle }

/-- Where `WP` stands once the host has restarted its stream (R150, R162). -/
def restartWp : Restart → Nat → Nat
  | .fromStart, _ => 0
  | .afterLastCommand, wp => wp

/-- A block reset (R150, R151): STATUS and the sequencer take their reset values, `D` and the frames already emitted stay
(R152), and the host restarts its stream (log entry 5). -/
def blockReset (restart : Restart) (s : State) : State :=
  { s with
    status := 0x0000
    seq := .idle
    wp := restartWp restart s.wp }

/-- What a command will do, fixed by its operands alone (R24, R136): its frames in order and its result. -/
structure Plan where
  frames : List Frame
  code : ResultCode
  mask : Byte
  deriving DecidableEq, Repr

/-- `raise code`: the command ends with that code and has emitted no frame (R9, R136). -/
def raiseError (code : ResultCode) : Plan := { frames := [], code := code, mask := 0 }

/-- A command that emits its frames and ends with `Finish(OK)` (R9). -/
def emitThenOk (frames : List Frame) : Plan := { frames := frames, code := .ok, mask := 0 }

/-! ## The environment of one step (log entry 1) -/

/-- What the host and the channel do during this step; nothing when nothing is scheduled. -/
def nextEvent (s : State) : EnvEvent :=
  match s.env with
  | [] => .quiet
  | e :: _ => e

/-- How many of `n` frames still to come are emitted before the event takes effect. -/
def framesBefore (e : EnvEvent) (n : Nat) : Nat :=
  match e with
  | .quiet => n
  | .late => n
  | .hold m => min m n
  | .stall m => min m n
  | .reset m _ => min m n

/-- The event of this step is over once `n` frames are out; a stall stays until it blocks a transfer (R159). -/
def spendEvent (n : Nat) (s : State) : State :=
  { s with
    env :=
      match s.env with
      | [] => []
      | .quiet :: later => later
      | .late :: later => later
      | .hold _ :: later => later
      | .stall m :: later => .stall (m - n) :: later
      | .reset _ _ :: later => later }

/-! ## Running a command -/

/-- Run a command of `len` words from its frame `k` on (R25): the frames go out in order until the command is done, or the
channel holds the next transfer and the block is BUSY, `mark j` with `j` frames out (R25, R159), or a reset abandons
the command (R152). -/
def runPlan (len : Nat) (mark : Nat → Sequencer) (p : Plan) (k : Nat) (s : State) : State :=
  let rest := p.frames.drop k
  let n := framesBefore (nextEvent s) rest.length
  let s1 := spendEvent n (emitAll (rest.take n) s)
  match nextEvent s with
  | .reset _ restart => blockReset restart s1
  | .quiet => finish p.code p.mask len s1
  | .late => finish p.code p.mask len s1
  | .hold _ => if n < rest.length then { s1 with seq := mark (k + n) } else finish p.code p.mask len s1
  | .stall _ => if n < rest.length then { s1 with seq := mark (k + n) } else finish p.code p.mask len s1

/-- Does the payload of this command of `len` words come later than this step (R158)? -/
def payloadLate (len : Nat) (s : State) : Bool :=
  match nextEvent s with
  | .late => decide (1 < len)
  | .quiet => false
  | .hold _ => false
  | .stall _ => false
  | .reset _ _ => false

/-- The block takes the header at `W[WP]` and waits, BUSY, for its payload words: it validates nothing and emits nothing
(R68, R158). -/
def awaitPayload (s : State) : State := { spendEvent 0 s with seq := .waiting }

/-- Take a command of `len` words: wait while its payload is late, then run it from its first frame on (R68, R158). -/
def takeCommand (len : Nat) (mark : Nat → Sequencer) (p : Plan) (s : State) : State :=
  if payloadLate len s then awaitPayload s else runPlan len mark p 0 s

/-- Accept a command and run it: only in IDLE (R25). Every meaning is this operation on the command's plan. -/
def accept (i : Instr) (p : Plan) (s : State) : Host.Outcome State Fault Refusal :=
  match s.seq with
  | .idle => .next (takeCommand (commandLength i) (Sequencer.busy i) p s)
  | .waiting => .refused .sequencerBusy
  | .busy _ _ => .refused .sequencerBusy

/-- Reading STATUS: the host may do so at any time the block is IDLE (R140, R162). -/
def readStatus (s : State) : Option (BitVec 16) :=
  match s.seq with
  | .idle => some s.status
  | .waiting => none
  | .busy _ _ => none

end Sys2Proof.Machine
end

