-- ==== Sys2Proof/Machine/Operands.lean ====
section
/-! DEFINITION. The operand forms and the shared pieces of the commands: routing a digit to its register (R96), decimal
digits (R91), the range checks (R131), the steps of an aggregate command (R134). -/

namespace Sys2Proof.Machine

/-- The register address of digit `i` (R27, R96). -/
def digitAddr (p : Params) (i : Nat) : Addr := p.digit0Addr + BitVec.ofNat 4 i

/-- The frame that writes `v` to digit `i` (R96). -/
def digitFrame (p : Params) (i : Nat) (v : Byte) : Frame := { addr := digitAddr p i, value := v }

/-- Is this a digit index, in [0,7] (R11)? -/
def isDigitIndex (i : Nat) : Bool := decide (i < Config.numDigits)

/-- `dec(M, i)`, the `i`-th decimal digit of `M` (R91). -/
def dec (m i : Nat) : Nat := m / 10 ^ i % 10

/-- The digit loop of R92 and R102, `n` turns from turn `i` on with the magnitude left: write `M mod 10` to the digit
index of this turn, then `M <- M div 10`. -/
def digitLoop (p : Params) (pos : Nat → Nat) : Nat → Nat → Nat → List Frame
  | 0, _, _ => []
  | n + 1, i, m => digitFrame p (pos i) (BitVec.ofNat 8 (m % 10)) :: digitLoop p pos n (i + 1) (m / 10)

/-- The MINUS frame at digit `i` when the value is negative (R92, R96, R102). -/
def signFrames (p : Params) (i : Nat) (negative : Bool) : List Frame :=
  if negative then [digitFrame p i p.minus] else []

/-- A boolean setting as its register value (R113, R114). -/
def powerByte (p : Params) (on : Bool) : Byte := if on then p.powerOn else p.powerOff

/-- One step of an aggregate command: did it fail, and the frames it emitted. -/
structure StepRun where
  failed : Bool
  frames : List Frame
  deriving DecidableEq, Repr

/-- A step that emits frames with valid operands: it never fails, as the channel never does (R135). -/
def emitStep (frames : List Frame) : StepRun := { failed := false, frames := frames }

/-- The aggregate command of these steps: every step runs, whether or not an earlier one failed, and the mask tells which
did (R82, R116, R134). -/
def aggregate (steps : List StepRun) : Plan :=
  let mask := stepMask (steps.map StepRun.failed)
  { frames := steps.flatMap StepRun.frames
    code := if mask = 0 then .ok else .stepFailed
    mask := mask }

end Sys2Proof.Machine
end

