-- ==== Sys2Proof/Machine/Bcd.lean ====
section
/-! DEFINITION. The BCD digit and integer encoder (41_bcd.md). No command here looks at `D` (R30). -/

namespace Sys2Proof.Machine

/-- R90's pseudocode. -/
def planDisplayBcdDigit (p : Params) (digit value : Byte) : Plan :=
  if digit.toNat > 7 ∨ value.toNat > 15 then raiseError .outOfRange
  else emitThenOk [digitFrame p digit.toNat value]

/-- `display_bcd_digit digit, value` (R90). -/
def execDisplayBcdDigit (digit value : Byte) (s : State) : Host.Outcome State Fault Refusal :=
  accept (.displayBcdDigit digit value) (planDisplayBcdDigit Config.params digit value) s

/-- `pos(i)`: the digit index of the `i`-th least significant digit (R92 normative, R93 alternative). -/
def bcdPos (order : BcdIntOrder) (segments i : Nat) : Nat :=
  match order with
  | .lsdAt0 => i
  | .msdAt0 => segments - 1 - i

/-- R92's pseudocode (R93 for the alternative order): `segments` digits with no magnitude check (R94), then MINUS over
digit 0 when the value is negative. -/
def planDisplayBcdInt (p : Params) (value : Int) (segments : Byte) : Plan :=
  if segments.toNat < 1 ∨ segments.toNat > 8 then raiseError .outOfRange
  else emitThenOk (digitLoop p (bcdPos p.bcdIntOrder segments.toNat) segments.toNat 0 value.natAbs
    ++ signFrames p 0 (decide (value < 0)))

/-- `display_bcd_int value, segments` (R92). -/
def execDisplayBcdInt (value : Int) (segments : Byte) (s : State) : Host.Outcome State Fault Refusal :=
  accept (.displayBcdInt value segments) (planDisplayBcdInt Config.params value segments) s

end Sys2Proof.Machine
end

