-- ==== Sys2Proof/Machine/Configuration.lean ====
section
/-! DEFINITION. The configuration passthrough, `clear` and `init` (43_config.md). -/

namespace Sys2Proof.Machine

/-- R110's pseudocode. -/
def planSetDecodeMode (p : Params) (byte : Byte) : Plan := emitThenOk [{ addr := p.decodeModeAddr, value := byte }]

/-- `set_decode_mode byte` (R110). -/
def execSetDecodeMode (byte : Byte) (s : State) : Host.Outcome State Fault Refusal :=
  accept (.setDecodeMode byte) (planSetDecodeMode Config.params byte) s

/-- R111's pseudocode. -/
def planSetIntensity (p : Params) (byte : Byte) : Plan := emitThenOk [{ addr := p.intensityAddr, value := byte }]

/-- `set_intensity byte` (R111). -/
def execSetIntensity (byte : Byte) (s : State) : Host.Outcome State Fault Refusal :=
  accept (.setIntensity byte) (planSetIntensity Config.params byte) s

/-- R112's pseudocode. -/
def planSetScanLimit (p : Params) (byte : Byte) : Plan := emitThenOk [{ addr := p.scanLimitAddr, value := byte }]

/-- `set_scan_limit byte` (R112). -/
def execSetScanLimit (byte : Byte) (s : State) : Host.Outcome State Fault Refusal :=
  accept (.setScanLimit byte) (planSetScanLimit Config.params byte) s

/-- R113's pseudocode. -/
def planSetPower (p : Params) (on : Bool) : Plan := emitThenOk [{ addr := p.powerAddr, value := powerByte p on }]

/-- `set_power on|off` (R113). -/
def execSetPower (on : Bool) (s : State) : Host.Outcome State Fault Refusal :=
  accept (.setPower on) (planSetPower Config.params on) s

/-- R114's pseudocode. -/
def planSetDisplayTest (p : Params) (on : Bool) : Plan :=
  emitThenOk [{ addr := p.displayTestAddr, value := powerByte p on }]

/-- `set_display_test on|off` (R114). -/
def execSetDisplayTest (on : Bool) (s : State) : Host.Outcome State Fault Refusal :=
  accept (.setDisplayTest on) (planSetDisplayTest Config.params on) s

/-- The eight frames of `clear`, in ascending address order (R115). -/
def clearFrames (p : Params) : List Frame := (List.range 8).map fun i => digitFrame p i 0x00

/-- R115's pseudocode. -/
def planClear (p : Params) : Plan := emitThenOk (clearFrames p)

/-- `clear` (R115). -/
def execClear (s : State) : Host.Outcome State Fault Refusal :=
  accept .clear (planClear Config.params) s

/-- Steps 0 to 3 of `init`, the same for RAW and BCD (R116). -/
def initSteps (p : Params) : List StepRun :=
  [ emitStep [{ addr := p.scanLimitAddr, value := p.initScanLimit }],
    emitStep [{ addr := p.intensityAddr, value := p.initIntensity }],
    emitStep [{ addr := p.powerAddr, value := p.powerOn }],
    emitStep (clearFrames p) ]

/-- R116's pseudocode: step 4, decode mode, only for BCD. -/
def planInit (p : Params) : InitMode → Plan
  | .none => emitThenOk []
  | .raw => aggregate (initSteps p)
  | .bcd => aggregate (initSteps p ++ [emitStep [{ addr := p.decodeModeAddr, value := p.initDecode }]])

/-- `init mode` (R116). -/
def execInit (mode : InitMode) (s : State) : Host.Outcome State Fault Refusal :=
  accept (.init mode) (planInit Config.params mode) s

end Sys2Proof.Machine
end

