-- ==== Sys2Proof/Machine/FixedPoint.lean ====
section
/-! DEFINITION. The fixed-point encoder (42_fixed_point.md). -/

namespace Sys2Proof.Machine

/-- R100: `1 ≤ decimals`, `2 ≤ segments`, `decimals < segments` and `segments ≤ 8`. -/
def fixedOperandsValid (decimals segments : Nat) : Bool :=
  decide (1 ≤ decimals) && decide (2 ≤ segments) && decide (decimals < segments) && decide (segments ≤ 8)

/-- `ndig`: the digit positions the magnitude has, one fewer when the sign needs one (R102). -/
def fixedDigits (scaled : Int) (segments : Nat) : Nat := if scaled < 0 then segments - 1 else segments

/-- R102's pseudocode: the operand check (R100), the range check with the reject policy (R101), the digits, the sign. -/
def planDisplayFixed (p : Params) (scaled : Int) (decimals segments : Byte) : Plan :=
  if fixedOperandsValid decimals.toNat segments.toNat = false then raiseError .outOfRange
  else if scaled.natAbs ≥ 10 ^ fixedDigits scaled segments.toNat then raiseError .overflow
  else emitThenOk (digitLoop p (fun i => i) (fixedDigits scaled segments.toNat) 0 scaled.natAbs
    ++ signFrames p (segments.toNat - 1) (decide (scaled < 0)))

/-- `display_fixed value, decimals, segments` (R102). -/
def execDisplayFixed (scaled : Int) (decimals segments : Byte) (s : State) : Host.Outcome State Fault Refusal :=
  accept (.displayFixed scaled decimals segments) (planDisplayFixed Config.params scaled decimals segments) s

end Sys2Proof.Machine
end

