-- ==== Sys2Proof/Machine/RawDisplay.lean ====
section
/-! DEFINITION. The matrix, vector and byte encoder (40_raw_display.md). No command here looks at `D` (R83). -/

namespace Sys2Proof.Machine

/-- R80's pseudocode. -/
def planDisplayByte (p : Params) (row value : Byte) : Plan :=
  if row.toNat > 7 then raiseError .outOfRange else emitThenOk [digitFrame p row.toNat value]

/-- `display_byte row, value` (R80). -/
def execDisplayByte (row value : Byte) (s : State) : Host.Outcome State Fault Refusal :=
  accept (.displayByte row value) (planDisplayByte Config.params row value) s

/-- R81's pseudocode: pack the booleans, then exactly R80. -/
def planDisplayVector (p : Params) (row : Byte) (vector : BoolVec) : Plan :=
  planDisplayByte p row (packVector vector)

/-- `display_vector row, [v0..v7]` (R81). -/
def execDisplayVector (row : Byte) (vector : BoolVec) (s : State) : Host.Outcome State Fault Refusal :=
  accept (.displayVector row vector) (planDisplayVector Config.params row vector) s

/-- The rows of the matrix, row 0 first (R82). -/
def matrixRows (m : BoolMatrix) : List BoolVec := [m.m0, m.m1, m.m2, m.m3, m.m4, m.m5, m.m6, m.m7]

/-- The turn of R82's loop for row `r`: R81 with `row = r`, which would fail for a row above 7. -/
def matrixStep (p : Params) (r : Nat) (row : BoolVec) : StepRun :=
  if r > 7 then { failed := true, frames := [] } else emitStep [digitFrame p r (packVector row)]

/-- R82's pseudocode: the rows in order 0 to 7, with no early exit. -/
def planDisplayMatrix (p : Params) (m : BoolMatrix) : Plan :=
  aggregate ((matrixRows m).zipIdx.map fun (row, r) => matrixStep p r row)

/-- `display_matrix [M_0..M_7]` (R82). -/
def execDisplayMatrix (matrix : BoolMatrix) (s : State) : Host.Outcome State Fault Refusal :=
  accept (.displayMatrix matrix) (planDisplayMatrix Config.params matrix) s

end Sys2Proof.Machine
end

