-- ==== Sys2Proof/Machine/Dispatch.lean ====
section
/-! DEFINITION. The meaning of every command: one arm per constructor of `Instr`. -/

namespace Sys2Proof.Machine

/-- The effect of a command that the block takes in this state (R63). -/
def exec (i : Instr) (s : State) : Host.Outcome State Fault Refusal :=
  match i with
  | .displayByte row value => Sys2Proof.Machine.execDisplayByte row value s
  | .displayVector row vector => Sys2Proof.Machine.execDisplayVector row vector s
  | .displayMatrix matrix => Sys2Proof.Machine.execDisplayMatrix matrix s
  | .displayBcdDigit digit value => Sys2Proof.Machine.execDisplayBcdDigit digit value s
  | .displayBcdInt value segments => Sys2Proof.Machine.execDisplayBcdInt value segments s
  | .displayFixed scaled decimals segments => Sys2Proof.Machine.execDisplayFixed scaled decimals segments s
  | .setDecodeMode byte => Sys2Proof.Machine.execSetDecodeMode byte s
  | .setIntensity byte => Sys2Proof.Machine.execSetIntensity byte s
  | .setScanLimit byte => Sys2Proof.Machine.execSetScanLimit byte s
  | .setPower on => Sys2Proof.Machine.execSetPower on s
  | .setDisplayTest on => Sys2Proof.Machine.execSetDisplayTest on s
  | .clear => Sys2Proof.Machine.execClear s
  | .init mode => Sys2Proof.Machine.execInit mode s

end Sys2Proof.Machine
end

