-- ==== Sys2Proof/Machine/Sequencer.lean ====
section
/-! DEFINITION. What the block does between commands and in the middle of one: reading the next command from the host's
stream (R21, R67, R68), answering an ILLEGAL header (R66, R133), waiting for payload (R158), going on with a command in
progress (R25), stopping where
the spec gives no step (R158, R159, R161), and placing one instruction in the stream. -/

namespace Sys2Proof.Machine

/-- What the words from `W[WP]` on are (R21). -/
def fetch (s : State) : Decoded := decode (s.stream.drop s.wp)

/-- The plan of a command in progress: it is fixed by the command alone (R24, R25). -/
def planOf (i : Instr) : Plan :=
  match i with
  | .displayByte row value => planDisplayByte Config.params row value
  | .displayVector row vector => planDisplayVector Config.params row vector
  | .displayMatrix matrix => planDisplayMatrix Config.params matrix
  | .displayBcdDigit digit value => planDisplayBcdDigit Config.params digit value
  | .displayBcdInt value segments => planDisplayBcdInt Config.params value segments
  | .displayFixed scaled decimals segments => planDisplayFixed Config.params scaled decimals segments
  | .setDecodeMode byte => planSetDecodeMode Config.params byte
  | .setIntensity byte => planSetIntensity Config.params byte
  | .setScanLimit byte => planSetScanLimit Config.params byte
  | .setPower on => planSetPower Config.params on
  | .setDisplayTest on => planSetDisplayTest Config.params on
  | .clear => planClear Config.params
  | .init mode => planInit Config.params mode

/-- An ILLEGAL command of `len` words: no frame, STATUS.CODE = ILLEGAL, its words consumed (R66, R67, R133). -/
def runIllegal (len : Nat) (s : State) : State :=
  takeCommand len (fun _ => .idle) (raiseError .illegal) s

/-- Is the transfer in progress one that never completes (R159)? Only while a frame is still to come. -/
def isStalled (i : Instr) (k : Nat) (s : State) : Bool :=
  match nextEvent s with
  | .stall 0 => decide (k < (planOf i).frames.length)
  | .stall (_ + 1) => false
  | .quiet => false
  | .late => false
  | .hold _ => false
  | .reset _ _ => false

/-- Go on with a command of which `k` frames are out (R25); a stalled transfer blocks the block (R159). -/
def resume (i : Instr) (k : Nat) (s : State) : Host.Outcome State Fault Refusal :=
  if isStalled i k s then .fault .stalledTransfer
  else .next (runPlan (commandLength i) (Sequencer.busy i) (planOf i) k s)

/-- With no header on offer in IDLE, or with the payload missing for good, there is no step but a reset by the host, which
may come at any time (R158, R161, R162). -/
def stopUnlessReset (why : Fault) (s : State) : Host.Outcome State Fault Refusal :=
  match nextEvent s with
  | .reset _ restart => .next (blockReset restart (spendEvent 0 s))
  | .quiet => .fault why
  | .late => .fault why
  | .hold _ => .fault why
  | .stall _ => .fault why

/-- In IDLE with a header whose payload words are not all there, the block goes into BUSY-waiting (R158), unless the host
resets it first (R162). -/
def waitUnlessReset (s : State) : State :=
  match nextEvent s with
  | .reset _ restart => blockReset restart (spendEvent 0 s)
  | .quiet => awaitPayload s
  | .late => awaitPayload s
  | .hold _ => awaitPayload s
  | .stall _ => awaitPayload s

/-- Go on in BUSY-waiting: with the payload there, the command is validated and executed as one taken from IDLE (R68);
with the stream ended before it, the block is stuck (R158). -/
def resumeWaiting (s : State) : Host.Outcome State Fault Refusal :=
  match fetch s with
  | .command i => exec i { s with seq := .idle }
  | .illegal _ len => .next (runIllegal len s)
  | .incomplete _ => stopUnlessReset .incompleteCommand s
  | .exhausted => stopUnlessReset .incompleteCommand s

/-- The words with `new` in place of those from index `at_` on, as many as `new` has; words before it that were never
there read as 0. -/
def placeWords (old : List Word) (at_ : Nat) (new : List Word) : List Word :=
  (List.range at_).map (fun j => old.getD j 0) ++ new ++ old.drop (at_ + new.length)

/-- The state in which the block's next step takes the command `ws`: its words at `W[WP]`, IDLE, and nothing disturbing it
(log entry 2). -/
def placeCommand (ws : List Word) (s : State) : State :=
  { s with
    stream := placeWords s.stream s.wp ws
    seq := .idle
    env := [] }

end Sys2Proof.Machine
end

