-- ==== Sys2Proof/Machine/Step.lean ====
section
/-! DEFINITION. One step of the block: the next command as a whole when nothing holds it up (D1), or the rest of a command
in progress (R25), or waiting for payload words (R158), or a reset (R150). -/

namespace Sys2Proof.Machine

/-- One step (R21, R25). -/
def step (s : State) : Host.Outcome State Fault Refusal :=
  match s.seq with
  | .busy cmd k => resume cmd k s
  | .waiting => resumeWaiting s
  | .idle =>
    match fetch s with
    | .command i => exec i s
    | .illegal _ len => .next (runIllegal len s)
    | .incomplete _ => .next (waitUnlessReset s)
    | .exhausted => stopUnlessReset .runEnded s

/-- `s` with the instruction whose bits are `w` placed at `W[WP]`, where the block reads its next command (log entry 2). -/
def State.withFetchWord (s : State) (nbits w : Nat) : State := placeCommand (tableWords nbits w) s

end Sys2Proof.Machine
end

