-- ==== Sys2Proof/Safety.lean ====
section
/-! DEFINITION. What claims are stated in: what a completed command leaves, seen from outside (R49, R138); the invariant of
the machine; the ends of a run (R158, R159, R161). -/

namespace Sys2Proof.Machine

/-- The value the last of these frames to address `a` writes; none if no frame goes there (R26, R49). -/
def lastWrite : List Frame → Addr → Option Byte
  | [], _ => none
  | f :: later, a => (lastWrite later a).or (if f.addr = a then some f.value else none)

/-- The register image after frames: the last write to each address, the old entry elsewhere (R26). -/
def imageAfter (frames : List Frame) (m : Memory) (a : Addr) : Option Byte :=
  (lastWrite frames a).or (m.read a)

/-- The block takes a command in this state and nothing disturbs it: IDLE (R25), no stall and no reset (log entry 1). -/
def Undisturbed (s : State) : Prop := s.seq = .idle ∧ nextEvent s = .quiet

/-- What a command of `len` words with these frames and this STATUS leaves of `s`, field by field (R26, R41, R49, R138):
the frames follow the old ones in the trace and on the channel, every address reads the last frame to it and every other
address as before, STATUS is written, `WP` moves past the command, the block is IDLE, and the stream is as it was. (The
one field not named is `env`, the model's own: log entry 1.) -/
structure Completed (len : Nat) (frames : List Frame) (status : BitVec 16) (s t : State) : Prop where
  trace : t.trace = s.trace ++ frames
  channel : t.channel = s.channel ++ frames.flatMap frameOps
  dev : ∀ a, t.dev.read a = imageAfter frames s.dev a
  status : t.status = status
  wp : t.wp = s.wp + len
  seq : t.seq = .idle
  stream : t.stream = s.stream

/-- `exec i s` completes so: the block answers a next state, and it is that one. -/
def Completes (i : Instr) (len : Nat) (frames : List Frame) (status : BitVec 16) (s : State) : Prop :=
  ∃ t, exec i s = .next t ∧ Completed len frames status s t

/-- The addresses the block may write: 0x01..0x0C and 0x0F (R47). -/
def LegalAddr (a : Addr) : Prop := (1 ≤ a.toNat ∧ a.toNat ≤ 12) ∨ a.toNat = 15

/-- The values STATUS can hold: no reserved bit, no STEPMASK, and CODE one of OK, OUT_OF_RANGE, OVERFLOW, ILLEGAL
(R22, R134, R135). -/
def LegalStatus (st : BitVec 16) : Prop := st = 0x0000 ∨ st = 0x0001 ∨ st = 0x0003 ∨ st = 0x0004

/-- The sequencer is IDLE, or BUSY-waiting for the payload of the header at `WP` (R158), or BUSY with the command that
stands at `WP`, complete (R21, R25), and with a frame still to come (log entry 16). -/
def SequencerFits (s : State) : Prop :=
  match s.seq with
  | .idle => True
  | .waiting => ∃ h later, s.stream.drop s.wp = h :: later ∧ 1 < lengthOfOpc (headerOpc h)
  | .busy i k => fetch s = .command i ∧ k < (planOf i).frames.length

/-- The invariant of the machine: `WP` within the stream (R21), STATUS legal (R22), a fitting sequencer (R25), the register
image the canonical replay of the frame trace (R26, R49), every frame at a legal address (R47), and the channel's
operations those of the frame trace (R41). -/
structure Inv (s : State) : Prop where
  wp : s.wp ≤ s.stream.length
  status : LegalStatus s.status
  seq : SequencerFits s
  devCanonical : s.dev.wf = true
  dev : ∀ a, s.dev.read a = imageAfter s.trace [] a
  addrs : ∀ f ∈ s.trace, LegalAddr f.addr
  channel : s.channel = s.trace.flatMap frameOps

/-- The run over the host's stream has ended (R161). -/
def AtEnd (s : State) : Prop := s.seq = .idle ∧ s.wp = s.stream.length

/-- `skip` more payload words, then complete commands only, to the end of the words (R68, R158: the host's duty). -/
def completeAfter : Nat → List Word → Bool
  | 0, [] => true
  | _ + 1, [] => false
  | 0, h :: later => completeAfter (lengthOfOpc (headerOpc h) - 1) later
  | n + 1, _ :: later => completeAfter n later

/-- The words are a sequence of complete commands (R158). -/
def CompleteCommands (ws : List Word) : Prop := completeAfter 0 ws = true

/-- What the digits from index `k` on read back as, `n` of them: the sum of `D[i+1] · 10^i` (R95). -/
def digitsValue (read : Addr → Option Byte) : Nat → Nat → Nat
  | _, 0 => 0
  | k, n + 1 => ((read (BitVec.ofNat 4 (k + 1))).getD 0).toNat * 10 ^ k + digitsValue read (k + 1) n

end Sys2Proof.Machine
end

