-- ==== Sys2Proof/Certificates/Slice0/Obligations.lean ====
section
/-! DEFINITION. The statements for the provers, each from a numbered rule of spec/ or a section of it. -/

open Sys2Proof Sys2Proof.Machine

/-! ## Reset and completion -/

/-- R32: what power-up and reset leave, and what a block reset does not change. -/
def Obligations.ResetLeavesTheListedState : Prop :=
  State.reset.status = 0x0000 ∧ State.reset.seq = .idle ∧ State.reset.wp = 0 ∧ State.reset.trace = [] ∧
    (∀ a, State.reset.dev.read a = none) ∧
    ∀ s, (blockReset .afterLastCommand s).wp = s.wp ∧ ∀ r, (blockReset r s).dev = s.dev

/-- R150: a block reset sets STATUS and the sequencer and nothing else, `WP` then stands at W[0] or at the word after the
last complete command as the host chooses, and the block takes the next command. R151: it emits no frame and leaves `D`,
and after power-up every entry of `D` is unwritten. Two clauses are the model's choice (log entry 5, DESIGN CHOICE): that
the host's restart at W[0] sets `WP` to 0 in the same step, where R32 says that a block reset leaves `WP`, and that `env`
goes on over a reset. -/
def Obligations.BlockResetSetsStatusAndIdle : Prop :=
  (∀ (r : Restart) (s : State),
      (blockReset r s).status = 0x0000 ∧ (blockReset r s).seq = .idle ∧
      (blockReset r s).wp = (match r with | .fromStart => 0 | .afterLastCommand => s.wp) ∧
      (blockReset r s).dev = s.dev ∧ (blockReset r s).trace = s.trace ∧ (blockReset r s).channel = s.channel ∧
      (blockReset r s).stream = s.stream ∧ (blockReset r s).env = s.env ∧
      ∀ i, ∃ t, exec i (blockReset r s) = .next t) ∧
    ∀ a, State.reset.dev.read a = none

/-- R162 with R158 and R161: a reset that arrives while the block is IDLE, before the next command or with no complete
command on offer, or while it waits for payload, is the step. The event is the model's own (log entries 1 and 5). -/
def Obligations.IdleBlockCanAlwaysBeReset : Prop :=
  ∀ (s : State) (r : Restart), s.seq = .idle ∨ s.seq = .waiting → nextEvent s = .reset 0 r →
    ∃ t, step s = .next t ∧ t.status = 0x0000 ∧ t.seq = .idle ∧ t.dev = s.dev ∧ t.trace = s.trace ∧
      t.channel = s.channel ∧ t.stream = s.stream ∧ t.env = s.env.tail ∧
      t.wp = (match r with | .fromStart => 0 | .afterLastCommand => s.wp)

/-- R138: `Finish(code, mask)` writes STATUS, moves `WP` past the command, makes the sequencer IDLE, and does nothing
else. -/
def Obligations.FinishWritesStatusAndAdvances : Prop :=
  ∀ (code : ResultCode) (mask : Byte) (len : Nat) (s : State),
    statusCode (finish code mask len s).status = codeBits code ∧
    statusReserved (finish code mask len s).status = 0 ∧
    statusStepMask (finish code mask len s).status = mask ∧
    (finish code mask len s).wp = s.wp + len ∧ (finish code mask len s).seq = .idle ∧
    (finish code mask len s).dev = s.dev ∧ (finish code mask len s).trace = s.trace ∧
    (finish code mask len s).channel = s.channel ∧ (finish code mask len s).stream = s.stream ∧
    (finish code mask len s).env = s.env

/-- R41: one frame on the channel is begin, the address byte `0000aaaa`, the value byte, end; it sets `D[a]`, no other
entry, and is added to the trace. -/
def Obligations.EmitFrameIsOneRegisterWrite : Prop :=
  ∀ (a : Addr) (v : Byte) (s : State), ∃ addrByte : Byte,
    addrByte.toNat = a.toNat ∧ addrByte.extractLsb' 4 4 = 0#4 ∧
    (emitFrame ⟨a, v⟩ s).channel =
      s.channel ++ [.beginFrame, .transferByte addrByte, .transferByte v, .endFrame] ∧
    (∀ b, (emitFrame ⟨a, v⟩ s).dev.read b = if b = a then some v else s.dev.read b) ∧
    (emitFrame ⟨a, v⟩ s).trace = s.trace ++ [⟨a, v⟩] ∧
    (emitFrame ⟨a, v⟩ s).status = s.status ∧ (emitFrame ⟨a, v⟩ s).wp = s.wp ∧
    (emitFrame ⟨a, v⟩ s).seq = s.seq ∧ (emitFrame ⟨a, v⟩ s).stream = s.stream

/-! ## The commands: result and frame -/

/-- R80. -/
def Obligations.DisplayByteResult : Prop :=
  ∀ (row value : Byte) (s : State),
    encode (.displayByte row value) = [headerWord 0x01 row value 0x00] ∧
    (Undisturbed s → row.toNat ≤ 7 →
      Completes (.displayByte row value) 1 [⟨BitVec.ofNat 4 (row.toNat + 1), value⟩] 0x0000 s) ∧
    (Undisturbed s → 7 < row.toNat → Completes (.displayByte row value) 1 [] 0x0001 s)

/-- R81: the byte written is `Σ v_i · 2^i`. -/
def Obligations.DisplayVectorResult : Prop :=
  ∀ (row : Byte) (v : BoolVec) (s : State), ∃ byte : Byte,
    byte.toNat = v.v0.toNat + v.v1.toNat * 2 + v.v2.toNat * 2 ^ 2 + v.v3.toNat * 2 ^ 3 + v.v4.toNat * 2 ^ 4
      + v.v5.toNat * 2 ^ 5 + v.v6.toNat * 2 ^ 6 + v.v7.toNat * 2 ^ 7 ∧
    encode (.displayVector row v) = [headerWord 0x02 row byte 0x00] ∧
    (Undisturbed s → row.toNat ≤ 7 →
      Completes (.displayVector row v) 1 [⟨BitVec.ofNat 4 (row.toNat + 1), byte⟩] 0x0000 s) ∧
    (Undisturbed s → 7 < row.toNat → Completes (.displayVector row v) 1 [] 0x0001 s)

/-- R82: the eight rows in order, to addresses 0x01 to 0x08; `M_r` is the byte with bit `c` = `matrix[r][c]`. That STATUS
is OK is the spec's own inference in R82 and R134 ("No step can fail"). -/
def Obligations.DisplayMatrixResult : Prop :=
  ∀ (m : BoolMatrix) (s : State),
    encode (.displayMatrix m) =
      [0x03000000, headerWord (packVector m.m3) (packVector m.m2) (packVector m.m1) (packVector m.m0),
       headerWord (packVector m.m7) (packVector m.m6) (packVector m.m5) (packVector m.m4)] ∧
    (Undisturbed s →
      Completes (.displayMatrix m) 3
        [⟨0x1, packVector m.m0⟩, ⟨0x2, packVector m.m1⟩, ⟨0x3, packVector m.m2⟩, ⟨0x4, packVector m.m3⟩,
         ⟨0x5, packVector m.m4⟩, ⟨0x6, packVector m.m5⟩, ⟨0x7, packVector m.m6⟩, ⟨0x8, packVector m.m7⟩] 0x0000 s)

/-- R90. -/
def Obligations.DisplayBcdDigitResult : Prop :=
  ∀ (digit value : Byte) (s : State),
    encode (.displayBcdDigit digit value) = [headerWord 0x04 digit value 0x00] ∧
    (Undisturbed s → digit.toNat ≤ 7 ∧ value.toNat ≤ 15 →
      Completes (.displayBcdDigit digit value) 1 [⟨BitVec.ofNat 4 (digit.toNat + 1), value⟩] 0x0000 s) ∧
    (Undisturbed s → 7 < digit.toNat ∨ 15 < value.toNat →
      Completes (.displayBcdDigit digit value) 1 [] 0x0001 s)

/-- R92 with the normative LSD_AT_0: the decimal digits of `|V|`, least significant at digit 0, then MINUS over digit 0. -/
def Obligations.DisplayBcdIntResult : Prop :=
  ∀ (value : Int) (segments : Byte) (s : State),
    encode (.displayBcdInt value segments) = [headerWord 0x05 segments 0x00 0x00, BitVec.ofInt 32 value] ∧
    (Undisturbed s → 1 ≤ segments.toNat ∧ segments.toNat ≤ 8 →
      Completes (.displayBcdInt value segments) 2
        ((List.range segments.toNat).map
            (fun i => ⟨BitVec.ofNat 4 (i + 1), BitVec.ofNat 8 (value.natAbs / 10 ^ i % 10)⟩)
          ++ if value < 0 then [⟨0x1, 0x0A⟩] else []) 0x0000 s) ∧
    (Undisturbed s → segments.toNat < 1 ∨ 8 < segments.toNat →
      Completes (.displayBcdInt value segments) 2 [] 0x0001 s)

/-- R94: no magnitude check: whatever the value, STATUS is OK and the digit registers then hold `dec(|V|, i)` at digit `i`
for `1 ≤ i < segments`, and `dec(|V|, 0)` or MINUS at digit 0. -/
def Obligations.BcdIntTruncatesSilently : Prop :=
  ∀ (value : Int) (segments : Byte) (s : State), Undisturbed s → 1 ≤ segments.toNat → segments.toNat ≤ 8 →
    ∃ t, exec (.displayBcdInt value segments) s = .next t ∧ t.status = 0x0000 ∧
      (∀ i, 1 ≤ i → i < segments.toNat →
        t.dev.read (BitVec.ofNat 4 (i + 1)) = some (BitVec.ofNat 8 (value.natAbs / 10 ^ i % 10))) ∧
      t.dev.read 0x1 = some (if value < 0 then 0x0A else BitVec.ofNat 8 (value.natAbs % 10)) ∧
      (∀ a : Addr, a = 0 ∨ segments.toNat < a.toNat → t.dev.read a = s.dev.read a)

/-- R102 with R100 and R101: the operand check first, the range check second, then the digits and the sign at digit
`segments - 1`. -/
def Obligations.DisplayFixedResult : Prop :=
  ∀ (scaled : Int) (decimals segments : Byte) (s : State),
    encode (.displayFixed scaled decimals segments) = [headerWord 0x06 segments decimals 0x00, BitVec.ofInt 32 scaled] ∧
    (Undisturbed s →
      if ¬ (1 ≤ decimals.toNat ∧ 2 ≤ segments.toNat ∧ decimals.toNat < segments.toNat ∧ segments.toNat ≤ 8) then
        Completes (.displayFixed scaled decimals segments) 2 [] 0x0001 s
      else if 0 ≤ scaled then
        if scaled.natAbs < 10 ^ segments.toNat then
          Completes (.displayFixed scaled decimals segments) 2
            ((List.range segments.toNat).map
              (fun i => ⟨BitVec.ofNat 4 (i + 1), BitVec.ofNat 8 (scaled.natAbs / 10 ^ i % 10)⟩)) 0x0000 s
        else Completes (.displayFixed scaled decimals segments) 2 [] 0x0003 s
      else if scaled.natAbs < 10 ^ (segments.toNat - 1) then
        Completes (.displayFixed scaled decimals segments) 2
          ((List.range (segments.toNat - 1)).map
              (fun i => ⟨BitVec.ofNat 4 (i + 1), BitVec.ofNat 8 (scaled.natAbs / 10 ^ i % 10)⟩)
            ++ [⟨BitVec.ofNat 4 segments.toNat, 0x0A⟩]) 0x0000 s
      else Completes (.displayFixed scaled decimals segments) 2 [] 0x0003 s)

/-- R110, R111, R112: every byte is written unchanged to its register. -/
def Obligations.SettingsPassTheirByteThrough : Prop :=
  ∀ (byte : Byte) (s : State),
    encode (.setDecodeMode byte) = [headerWord 0x10 0x00 byte 0x00] ∧
    encode (.setIntensity byte) = [headerWord 0x11 0x00 byte 0x00] ∧
    encode (.setScanLimit byte) = [headerWord 0x12 0x00 byte 0x00] ∧
    (Undisturbed s →
      Completes (.setDecodeMode byte) 1 [⟨0x9, byte⟩] 0x0000 s ∧
      Completes (.setIntensity byte) 1 [⟨0xA, byte⟩] 0x0000 s ∧
      Completes (.setScanLimit byte) 1 [⟨0xB, byte⟩] 0x0000 s)

/-- R113, R114: 0xFF for on, 0x00 for off; a B field other than 0 and 1 is ILLEGAL at decode. -/
def Obligations.SwitchesWriteAllOnesOrZeros : Prop :=
  (∀ (on : Bool) (s : State), Undisturbed s →
      Completes (.setPower on) 1 [⟨0xC, if on then 0xFF else 0x00⟩] 0x0000 s ∧
      Completes (.setDisplayTest on) 1 [⟨0xF, if on then 0xFF else 0x00⟩] 0x0000 s) ∧
    (∀ on : Bool,
      encode (.setPower on) = [headerWord 0x13 0x00 (if on then 1 else 0) 0x00] ∧
      encode (.setDisplayTest on) = [headerWord 0x14 0x00 (if on then 1 else 0) 0x00]) ∧
    ∀ (b : Byte) (later : List Word), 1 < b.toNat →
      decode (headerWord 0x13 0x00 b 0x00 :: later) = .illegal .operandConstraint 1 ∧
      decode (headerWord 0x14 0x00 b 0x00 :: later) = .illegal .operandConstraint 1

/-- R115, and its note that the frames are those of `display_matrix` with the all-false matrix. -/
def Obligations.ClearZeroesTheEightDigits : Prop :=
  encode .clear = [0x18000000] ∧
    ∀ s, Undisturbed s →
      Completes .clear 1 ((List.range' 1 8).map fun k => ⟨BitVec.ofNat 4 k, 0x00⟩) 0x0000 s ∧
      Completes (.displayMatrix (unpackMatrix 0 0)) 3 ((List.range' 1 8).map fun k => ⟨BitVec.ofNat 4 k, 0x00⟩) 0x0000 s

/-- R116: no frame for NONE, 11 for RAW, 12 for BCD, in the rule's order; a mode above 2 is ILLEGAL at decode. That STATUS
is OK for RAW and BCD is the spec's own inference in R116 ("No step can fail"). -/
def Obligations.InitWritesItsSequence : Prop :=
  (∀ s, Undisturbed s →
      Completes (.init .none) 1 [] 0x0000 s ∧
      Completes (.init .raw) 1
        ([⟨0xB, 0x04⟩, ⟨0xA, 0x0F⟩, ⟨0xC, 0xFF⟩] ++ (List.range' 1 8).map fun k => ⟨BitVec.ofNat 4 k, 0x00⟩) 0x0000 s ∧
      Completes (.init .bcd) 1
        ([⟨0xB, 0x04⟩, ⟨0xA, 0x0F⟩, ⟨0xC, 0xFF⟩] ++ (List.range' 1 8).map (fun k => ⟨BitVec.ofNat 4 k, 0x00⟩)
          ++ [⟨0x9, 0x0F⟩]) 0x0000 s) ∧
    encode (.init .none) = [0x19000000] ∧ encode (.init .raw) = [0x19010000] ∧ encode (.init .bcd) = [0x19020000] ∧
    ∀ (a : Byte) (later : List Word), 2 < a.toNat →
      decode (headerWord 0x19 a 0x00 0x00 :: later) = .illegal .operandConstraint 1

/-! ## Encoding -/

/-- R68: the length from OPC alone, and nothing is decoded before all words are there. -/
def Obligations.LengthFromOpcodeAlone : Prop :=
  ∀ (h : Word) (payload : List Word), ∃ len,
    (headerOpc h = 0x03 → len = 3) ∧ (headerOpc h = 0x05 ∨ headerOpc h = 0x06 → len = 2) ∧
    (headerOpc h ≠ 0x03 → headerOpc h ≠ 0x05 → headerOpc h ≠ 0x06 → len = 1) ∧
    (payload.length < len - 1 → decode (h :: payload) = .incomplete len) ∧
    (len - 1 ≤ payload.length →
      (∃ i, decode (h :: payload) = .command i ∧ commandLength i = len) ∨
      ∃ why, decode (h :: payload) = .illegal why len)

/-- R66 (with R62, R65): a complete header is ILLEGAL under exactly these conditions, and then emits no frame, sets
STATUS = 0x0004 and takes the words of its length; otherwise it is a command. -/
def Obligations.IllegalHeadersAreExactlyThese : Prop :=
  ∀ (s : State) (h : Word) (payload : List Word), Undisturbed s → s.stream.drop s.wp = h :: payload →
    lengthOfOpc (headerOpc h) ≤ payload.length + 1 →
    let opc := (headerOpc h).toNat
    let a := (headerA h).toNat
    let b := (headerB h).toNat
    if opc = 0x00 ∨ (0x07 ≤ opc ∧ opc ≤ 0x0F) ∨ (0x15 ≤ opc ∧ opc ≤ 0x17) ∨ 0x1A ≤ opc ∨ headerR h ≠ 0x00 ∨
        ((opc = 0x03 ∨ opc = 0x18) ∧ (a ≠ 0 ∨ b ≠ 0)) ∨ (opc = 0x05 ∧ b ≠ 0) ∨
        ((opc = 0x10 ∨ opc = 0x11 ∨ opc = 0x12) ∧ a ≠ 0) ∨ ((opc = 0x13 ∨ opc = 0x14) ∧ (a ≠ 0 ∨ 1 < b)) ∨
        (opc = 0x19 ∧ (2 < a ∨ b ≠ 0))
    then ∃ t, step s = .next t ∧ Completed (lengthOfOpc (headerOpc h)) [] 0x0004 s t
    else ∃ i, decode (h :: payload) = .command i

/-- Decode and encode agree: decoding the words of any well-formed command, whatever follows them, gives it back. -/
def Obligations.DecodeOfEncodeIsTheCommand : Prop :=
  ∀ (i : Instr) (later : List Word), i.wellFormed = true → decode (encode i ++ later) = .command i

/-- Every command has one encoding: what decodes to a command is a well-formed command's own words, as many as its
length. -/
def Obligations.EncodeOfDecodeIsTheWords : Prop :=
  ∀ (ws : List Word) (i : Instr), decode ws = .command i →
    i.wellFormed = true ∧ encode i = ws.take (commandLength i) ∧ (encode i).length = commandLength i

/-- Words spelled out from R61, R64 and R69 decode to the commands they stand for. -/
def Obligations.SpelledWordsDecode : Prop :=
  decode [0x0102AB00] = .command (.displayByte 2 0xAB) ∧
  decode [0x02008000] = .command (.displayVector 0 ⟨false, false, false, false, false, false, false, true⟩) ∧
  decode [0x04070F00] = .command (.displayBcdDigit 7 0x0F) ∧
  decode [0x05040000, 0xFFFFFFEC] = .command (.displayBcdInt (-20) 4) ∧
  decode [0x06050200, 0xFFFFFF83] = .command (.displayFixed (-125) 2 5) ∧
  decode [0x12000700] = .command (.setScanLimit 7) ∧
  decode [0x13000100] = .command (.setPower true) ∧
  decode [0x18000000] = .command .clear ∧
  decode [0x19020000] = .command (.init .bcd) ∧
  decode [0x01090501] = .illegal .reservedNotZero 1

/-- R69: each line of the assembler's table, with the source's operand order, gives the listed header and payload, and
each symbol its value (R29). That `display_fixed` and `display_bcd_int` take symbols for their value too is the model's
choice (log entry 15, DESIGN CHOICE). -/
def Obligations.AssemblerTable : Prop :=
  (∀ row value : Byte,
    (assemble .displayByte [.number row.toNat, .number value.toNat]).map encode = some [headerWord 0x01 row value 0x00] ∧
    (assemble .displayBcdDigit [.number row.toNat, .number value.toNat]).map encode
      = some [headerWord 0x04 row value 0x00]) ∧
  (∀ (row : Byte) (v : BoolVec),
    (assemble .displayVector [.number row.toNat, .list [v.v0.toNat, v.v1.toNat, v.v2.toNat, v.v3.toNat, v.v4.toNat,
      v.v5.toNat, v.v6.toNat, v.v7.toNat]]).map encode = some [headerWord 0x02 row (packVector v) 0x00]) ∧
  (∀ r0 r1 r2 r3 r4 r5 r6 r7 : Byte,
    (assemble .displayMatrix [.list [r0.toNat, r1.toNat, r2.toNat, r3.toNat, r4.toNat, r5.toNat, r6.toNat,
      r7.toNat]]).map encode = some [0x03000000, headerWord r3 r2 r1 r0, headerWord r7 r6 r5 r4]) ∧
  (∀ (value : Int) (segments : Byte), fitsInt32 value = true →
    (assemble .displayBcdInt [.number value, .number segments.toNat]).map encode
      = some [headerWord 0x05 segments 0x00 0x00, BitVec.ofInt 32 value]) ∧
  (∀ (num scaled : Int) (den : Nat) (decimals segments : Byte), den ≠ 0 →
    num * 10 ^ decimals.toNat = scaled * den → fitsInt32 scaled = true →
    (assemble .displayFixed [.decimal num den, .number decimals.toNat, .number segments.toNat]).map encode
      = some [headerWord 0x06 segments decimals 0x00, BitVec.ofInt 32 scaled]) ∧
  (∀ byte : Byte,
    (assemble .setDecodeMode [.number byte.toNat]).map encode = some [headerWord 0x10 0x00 byte 0x00] ∧
    (assemble .setIntensity [.number byte.toNat]).map encode = some [headerWord 0x11 0x00 byte 0x00] ∧
    (assemble .setScanLimit [.number byte.toNat]).map encode = some [headerWord 0x12 0x00 byte 0x00]) ∧
  (assemble .setPower [.symbol .on]).map encode = some [0x13000100] ∧
  (assemble .setPower [.symbol .off]).map encode = some [0x13000000] ∧
  (assemble .setDisplayTest [.symbol .on]).map encode = some [0x14000100] ∧
  (assemble .setDisplayTest [.symbol .off]).map encode = some [0x14000000] ∧
  (assemble .clear []).map encode = some [0x18000000] ∧
  (assemble .init [.symbol .modeNone]).map encode = some [0x19000000] ∧
  (assemble .init [.symbol .modeRaw]).map encode = some [0x19010000] ∧
  (assemble .init [.symbol .modeBcd]).map encode = some [0x19020000] ∧
  (∀ digit : Byte, ∀ sv ∈ ([(.minus, 0x0A), (.e, 0x0B), (.h, 0x0C), (.l, 0x0D), (.p, 0x0E), (.blank, 0x0F)]
      : List (AsmSymbol × Byte)),
    (assemble .displayBcdDigit [.number digit.toNat, .symbol sv.1]).map encode
      = some [headerWord 0x04 digit sv.2 0x00]) ∧
  asmSymbolValue .modeNone = 0 ∧ asmSymbolValue .modeRaw = 1 ∧ asmSymbolValue .modeBcd = 2 ∧
  asmSymbolValue .on = 1 ∧ asmSymbolValue .off = 0 ∧
  (∀ (sym : AsmSymbol) (decimals segments : Byte), fitsInt32 (asmSymbolValue sym * 10 ^ decimals.toNat) = true →
    assemble .displayFixed [.symbol sym, .number decimals.toNat, .number segments.toNat]
      = some (.displayFixed (asmSymbolValue sym * 10 ^ decimals.toNat) decimals segments)) ∧
  ∀ (sym : AsmSymbol) (segments : Byte),
    assemble .displayBcdInt [.symbol sym, .number segments.toNat] = some (.displayBcdInt (asmSymbolValue sym) segments)

/-! ## The step -/

/-- A step in IDLE runs the command that stands at `WP` (R21, R25): around `exec` it adds nothing, as moving `WP` past the
command's words is part of `Finish` (R138). A block that was waiting for the command's payload (R158) runs it as from
IDLE. -/
def Obligations.StepRunsTheDecodedCommand : Prop :=
  ∀ (s : State) (i : Instr), decode (s.stream.drop s.wp) = .command i →
    (s.seq = .idle → step s = exec i s) ∧ (s.seq = .waiting → step s = exec i { s with seq := .idle })

/-- A word of the opcode table, placed where the block reads its next command, is the command the next step runs. -/
def Obligations.PlacedWordIsTheNextCommand : Prop :=
  ∀ (s : State) (w : Nat) (i : Instr), decodeTableWord 32 w = some i →
    step (s.withFetchWord 32 w) = exec i (s.withFetchWord 32 w) ∧
    Undisturbed (s.withFetchWord 32 w) ∧ (s.withFetchWord 32 w).wp = s.wp ∧ (s.withFetchWord 32 w).dev = s.dev

/-- R21, R53, R71: an undisturbed step of an IDLE block reads one header, moves `WP` past that command's words if they are
all there, and not at all if they are not (R158), and leaves the stream as it was. -/
def Obligations.WordPointerMovesByTheCommandLength : Prop :=
  ∀ s t : State, Undisturbed s → step s = .next t →
    ∃ h later, s.stream.drop s.wp = h :: later ∧ t.wp ≤ s.stream.length ∧ t.stream = s.stream ∧
      if lengthOfOpc (headerOpc h) ≤ later.length + 1 then t.wp = s.wp + lengthOfOpc (headerOpc h) ∧ t.seq = .idle
      else t.wp = s.wp ∧ t.seq = .waiting

/-- R53: no step changes the host's words, whatever the host and the channel do. -/
def Obligations.NoStepChangesTheStream : Prop :=
  ∀ s t : State, step s = .next t → t.stream = s.stream

/-- R158 and R161: with no reset, an exhausted stream ends the run, and a block waiting for payload that never comes is
stuck, under names of their own (log entries 6 and 7); and a step answers neither when a complete command is on offer. -/
def Obligations.IncompleteIsStuckAndExhaustedEnds : Prop :=
  (∀ s, Undisturbed s → s.stream.length ≤ s.wp → step s = .fault .runEnded) ∧
  (∀ s h payload, s.seq = .waiting → (∀ m r, nextEvent s ≠ .reset m r) → s.stream.drop s.wp = h :: payload →
    payload.length + 1 < lengthOfOpc (headerOpc h) → step s = .fault .incompleteCommand) ∧
  ∀ s h payload, s.seq = .idle ∨ s.seq = .waiting → s.stream.drop s.wp = h :: payload →
    lengthOfOpc (headerOpc h) ≤ payload.length + 1 → ∃ t, step s = .next t

/-- R158: a header with payload holds the block BUSY-waiting while its payload words are not all there, because the stream
ends before them or because they come later (`late`, log entry 1): nothing is validated or emitted, STATUS is neither
written nor readable, and `WP` stays at the header. When they are there, the step is that of the command taken from IDLE. -/
def Obligations.PayloadIsAwaitedBusy : Prop :=
  (∀ s h payload, s.stream.drop s.wp = h :: payload → 1 < lengthOfOpc (headerOpc h) →
    (s.seq = .idle ∧ payload.length + 1 < lengthOfOpc (headerOpc h) ∧ (∀ m r, nextEvent s ≠ .reset m r)) ∨
      ((s.seq = .idle ∨ s.seq = .waiting) ∧ lengthOfOpc (headerOpc h) ≤ payload.length + 1 ∧ nextEvent s = .late) →
    ∃ t, step s = .next t ∧ t.seq = .waiting ∧ readStatus t = none ∧ t.status = s.status ∧ t.wp = s.wp ∧
      t.trace = s.trace ∧ t.channel = s.channel ∧ t.dev = s.dev ∧ t.stream = s.stream) ∧
  ∀ s h payload, s.seq = .waiting → s.stream.drop s.wp = h :: payload →
    lengthOfOpc (headerOpc h) ≤ payload.length + 1 → step s = step { s with seq := .idle }

/-- R25, R162: a command is accepted only in IDLE, not in BUSY or BUSY-waiting, and STATUS is readable exactly then. -/
def Obligations.CommandsAreAcceptedOnlyInIdle : Prop :=
  (∀ (s : State) (i : Instr), s.seq ≠ .idle →
    exec i s = .refused .sequencerBusy ∧ readStatus s = none) ∧
  ∀ (s : State) (i : Instr), s.seq = .idle → (∃ t, exec i s = .next t) ∧ readStatus s = some s.status

/-! ## Rules over all commands -/

/-- R26 and R49: a step only adds frames at the end of the trace and their operations at the end of the channel's, and
every address reads the last of these frames to it, or as before. -/
def Obligations.StepsOnlyAppendFrames : Prop :=
  ∀ s t : State, step s = .next t →
    ∃ frames, t.trace = s.trace ++ frames ∧ t.channel = s.channel ++ frames.flatMap frameOps ∧
      ∀ a, t.dev.read a = imageAfter frames s.dev a

/-- R47: the addresses of a command's frames, kind by kind; no address outside 0x01..0x0C and 0x0F. -/
def Obligations.FramesGoToTheCommandsOwnAddresses : Prop :=
  (∀ (i : Instr) (s t : State), exec i s = .next t →
    ∃ frames, t.trace = s.trace ++ frames ∧ ∀ f ∈ frames,
      match i with
      | .displayByte _ _ | .displayVector _ _ | .displayMatrix _ | .displayBcdDigit _ _ | .displayBcdInt _ _
      | .displayFixed _ _ _ | .clear => 1 ≤ f.addr.toNat ∧ f.addr.toNat ≤ 8
      | .setDecodeMode _ => f.addr = 0x9
      | .setIntensity _ => f.addr = 0xA
      | .setScanLimit _ => f.addr = 0xB
      | .setPower _ => f.addr = 0xC
      | .setDisplayTest _ => f.addr = 0xF
      | .init _ => 1 ≤ f.addr.toNat ∧ f.addr.toNat ≤ 12) ∧
  ∀ s t : State, step s = .next t → ∃ frames, t.trace = s.trace ++ frames ∧ ∀ f ∈ frames, LegalAddr f.addr

/-- R103, R29: the BCD commands write BCD symbols only, values in [0,15]. -/
def Obligations.BcdCommandsWriteBcdSymbols : Prop :=
  ∀ (s t : State) (i : Instr), exec i s = .next t →
    (match i with
      | .displayBcdDigit _ _ | .displayBcdInt _ _ | .displayFixed _ _ _ => True
      | _ => False) →
    ∃ frames, t.trace = s.trace ++ frames ∧ ∀ f ∈ frames, f.value.toNat ≤ 15

/-- R136 (with R130): a command that ends in an error has emitted no frame, so `D`, the trace and the channel are as
before. (A header still waiting for payload has not ended, and has emitted nothing either: R158.) -/
def Obligations.ErrorsEmitNoFrame : Prop :=
  ∀ s t : State, Undisturbed s → step s = .next t → t.status ≠ 0x0000 →
    t.trace = s.trace ∧ t.channel = s.channel ∧ t.dev = s.dev

/-- R131: OUT_OF_RANGE is raised by exactly these conditions. -/
def Obligations.OutOfRangeExactly : Prop :=
  ∀ (i : Instr) (s t : State), Undisturbed s → exec i s = .next t →
    (t.status = 0x0001 ↔
      match i with
      | .displayByte row _ => 7 < row.toNat
      | .displayVector row _ => 7 < row.toNat
      | .displayBcdDigit digit value => 7 < digit.toNat ∨ 15 < value.toNat
      | .displayBcdInt _ segments => segments.toNat < 1 ∨ 8 < segments.toNat
      | .displayFixed _ decimals segments =>
        ¬ (1 ≤ decimals.toNat ∧ decimals.toNat < segments.toNat ∧ segments.toNat ≤ 8 ∧ 2 ≤ segments.toNat)
      | _ => False)

/-- R132 (with R101): OVERFLOW is raised only by `display_fixed`, and there exactly when its operands are valid and its
value is out of range. -/
def Obligations.OverflowExactly : Prop :=
  ∀ (i : Instr) (s t : State), Undisturbed s → exec i s = .next t →
    (t.status = 0x0003 ↔
      match i with
      | .displayFixed scaled decimals segments =>
        (1 ≤ decimals.toNat ∧ decimals.toNat < segments.toNat ∧ segments.toNat ≤ 8) ∧
        ((0 ≤ scaled ∧ 10 ^ segments.toNat ≤ scaled.natAbs) ∨
          (scaled < 0 ∧ 10 ^ (segments.toNat - 1) ≤ scaled.natAbs))
      | _ => False)

/-- STATUS after an undisturbed step that ends in IDLE is 0x0000, 0x0001, 0x0003 or 0x0004: no reserved bit, no STEPMASK bit, and neither
STEP_FAILED nor TRANSPORT_ERROR. The last is the spec's own inference in R134 ("the rules never produce STEP_FAILED"). -/
def Obligations.StatusIsOneOfFourValues : Prop :=
  ∀ s t : State, Undisturbed s → step s = .next t → t.seq = .idle →
    LegalStatus t.status ∧ statusReserved t.status = 0 ∧ statusStepMask t.status = 0 ∧ statusCode t.status ≠ 0x2 ∧
      statusCode t.status ≠ 0x5

/-- R24: no rule reads STATUS: with any other STATUS before it, a step does the same, and when it leaves the block IDLE
it leaves the very same state. -/
def Obligations.NothingReadsStatus : Prop :=
  ∀ (s : State) (x : BitVec 16),
    match step s with
    | .next t => ∃ t', step { s with status := x } = .next t' ∧ { t' with status := t.status } = t ∧
        (t.seq = .idle → t' = t)
    | .fault f => step { s with status := x } = .fault f
    | .refused r => step { s with status := x } = .refused r

/-- R30 and R83: no command looks at what the device registers hold, the decode-mode register among them: with any other
image before it, a step emits the same frames and leaves all but the image the same. -/
def Obligations.NothingReadsTheDevice : Prop :=
  ∀ (s : State) (d : Memory),
    match step s with
    | .next t => ∃ t', step { s with dev := d } = .next t' ∧ { t' with dev := t.dev } = t
    | .fault f => step { s with dev := d } = .fault f
    | .refused r => step { s with dev := d } = .refused r

/-- The second point of R46, the spec's own inference there: issuing a command twice leaves the same `D` and STATUS as
issuing it once; the trace grows again by the same frames. -/
def Obligations.CommandsAreIdempotentOnTheDevice : Prop :=
  ∀ (i : Instr) (s t u : State), Undisturbed s → Undisturbed t → exec i s = .next t → exec i t = .next u →
    (∀ a, u.dev.read a = t.dev.read a) ∧ u.status = t.status ∧
      ∃ frames, t.trace = s.trace ++ frames ∧ u.trace = t.trace ++ frames

/-- The frame counts of R160's table, which the spec marks as derived. -/
def Obligations.FrameCountsPerCommand : Prop :=
  ∀ (i : Instr) (s t : State), Undisturbed s → exec i s = .next t → t.status = 0x0000 →
    t.trace.length = s.trace.length +
      match i with
      | .displayByte _ _ | .displayVector _ _ | .displayBcdDigit _ _ => 1
      | .displayMatrix _ => 8
      | .displayBcdInt value segments => if value < 0 then segments.toNat + 1 else segments.toNat
      | .displayFixed _ _ segments => segments.toNat
      | .setDecodeMode _ | .setIntensity _ | .setScanLimit _ | .setPower _ | .setDisplayTest _ => 1
      | .clear => 8
      | .init .none => 0
      | .init .raw => 11
      | .init .bcd => 12

/-- The round-trip law of R95 under LSD_AT_0, the spec's own inference there: what the digit registers read back as, the
sign digit skipped, and exactly when that is the magnitude. -/
def Obligations.BcdIntRoundTrip : Prop :=
  ∀ (value : Int) (segments : Byte) (s : State), Undisturbed s → 1 ≤ segments.toNat → segments.toNat ≤ 8 →
    ∃ t, exec (.displayBcdInt value segments) s = .next t ∧
      (0 ≤ value →
        digitsValue t.dev.read 0 segments.toNat = value.natAbs % 10 ^ segments.toNat ∧
        (digitsValue t.dev.read 0 segments.toNat = value.natAbs ↔ value.natAbs < 10 ^ segments.toNat)) ∧
      (value < 0 →
        digitsValue t.dev.read 1 (segments.toNat - 1)
          = value.natAbs % 10 ^ segments.toNat - value.natAbs / 10 ^ 0 % 10 ∧
        (digitsValue t.dev.read 1 (segments.toNat - 1) = value.natAbs ↔
          value.natAbs < 10 ^ segments.toNat ∧ value.natAbs % 10 = 0))

/-- R93, the alternative order as a model argument: the frames, and the source's round trip, which R95 infers for it. -/
def Obligations.MsdOrderFramesAndRoundTrip : Prop :=
  ∀ (value : Int) (segments : Byte), 1 ≤ segments.toNat → segments.toNat ≤ 8 →
    let frames := (planDisplayBcdInt { Config.params with bcdIntOrder := .msdAt0 } value segments).frames
    let fromTheTop := fun a : Addr => imageAfter frames [] (BitVec.ofNat 4 (segments.toNat + 1 - a.toNat))
    frames = (List.range segments.toNat).map
          (fun i => ⟨BitVec.ofNat 4 (segments.toNat - 1 - i + 1), BitVec.ofNat 8 (value.natAbs / 10 ^ i % 10)⟩)
        ++ (if value < 0 then [⟨0x1, 0x0A⟩] else []) ∧
    (0 ≤ value → digitsValue fromTheTop 0 segments.toNat = value.natAbs % 10 ^ segments.toNat) ∧
    (value < 0 → digitsValue fromTheTop 0 (segments.toNat - 1) = value.natAbs % 10 ^ (segments.toNat - 1))

/-! ## What the host and the channel do (log entries 1 and 5) -/

/-- R152: a reset in the middle of a command abandons it after any number of its frames: those stay in the trace and in
`D`, no further frame goes out, STATUS takes the reset value. Both for a reset scheduled when the block takes the command
and for one that finds it BUSY with `k` of the command's frames out. The event is the model's own (log entries 1 and 5). -/
def Obligations.ResetAbandonsAfterAnyFrame : Prop :=
  ∀ (i : Instr) (len : Nat) (frames : List Frame) (st : BitVec 16) (s : State) (m : Nat) (r : Restart)
    (later : List EnvEvent), Completes i len frames st { s with seq := .idle, env := [] } →
    (s.seq = .idle → ∃ t, exec i { s with env := .reset m r :: later } = .next t ∧
      t.trace = s.trace ++ frames.take m ∧ t.channel = s.channel ++ (frames.take m).flatMap frameOps ∧
      (∀ a, t.dev.read a = imageAfter (frames.take m) s.dev a) ∧
      t.status = 0x0000 ∧ t.seq = .idle ∧ t.stream = s.stream ∧ t.env = later ∧
      t.wp = (match r with | .fromStart => 0 | .afterLastCommand => s.wp)) ∧
    ∀ k, s.seq = .busy i k → ∃ t, step { s with env := .reset m r :: later } = .next t ∧
      t.trace = s.trace ++ (frames.drop k).take m ∧
      t.channel = s.channel ++ ((frames.drop k).take m).flatMap frameOps ∧
      (∀ a, t.dev.read a = imageAfter ((frames.drop k).take m) s.dev a) ∧
      t.status = 0x0000 ∧ t.seq = .idle ∧ t.stream = s.stream ∧ t.env = later ∧
      t.wp = (match r with | .fromStart => 0 | .afterLastCommand => s.wp)

/-- R159: a transfer that never completes: the frames before it are out, the block stays BUSY, STATUS is not written, and
there is no further step. Both from the step that takes the command and from BUSY with `k` of its frames out. The event
and the fault's name are the model's own (log entries 1 and 8). -/
def Obligations.StalledTransferBlocksForever : Prop :=
  ∀ (i : Instr) (len : Nat) (frames : List Frame) (st : BitVec 16) (s : State) (m : Nat) (later : List EnvEvent),
    Completes i len frames st { s with seq := .idle, env := [] } →
    (s.seq = .idle → m < frames.length → ∃ t, exec i { s with env := .stall m :: later } = .next t ∧
      t.trace = s.trace ++ frames.take m ∧ t.seq = .busy i m ∧ t.status = s.status ∧ t.wp = s.wp ∧
      step t = .fault .stalledTransfer) ∧
    ∀ k, s.seq = .busy i k → k + m < frames.length →
      if m = 0 then step { s with env := .stall m :: later } = .fault .stalledTransfer
      else ∃ t, step { s with env := .stall m :: later } = .next t ∧
        t.trace = s.trace ++ (frames.drop k).take m ∧ t.seq = .busy i (k + m) ∧ t.status = s.status ∧ t.wp = s.wp ∧
        step t = .fault .stalledTransfer

/-- R25, R158 and D1: a command seen frame by frame is the command as a whole. However late its payload comes and however
the channel holds the transfers back, a step that completes undisturbed and the steps of the held block reach the same
state, but for the events not yet used. The events `late` and `hold`, and that a hold with no frame left lets the command
complete, are the model's own (log entries 1 and 16, DESIGN CHOICE). -/
def Obligations.HeldCommandReachesTheSameState : Prop :=
  ∀ (s t : State) (i : Instr) (events : List EnvEvent), s.seq = .idle → fetch s = .command i →
    (∀ e ∈ events, e = .late ∨ ∃ m, e = .hold m) → step { s with env := [] } = .next t →
    ∃ n later, n ≤ events.length + 1 ∧
      Sys2Proof.core.run n { s with env := events } = .next { t with env := later }

/-- The schedule is the model's own field (log entry 1): an undisturbed step uses up one event of it. -/
def Obligations.UndisturbedStepUsesOneEvent : Prop :=
  ∀ s t : State, Undisturbed s → step s = .next t → t.env = s.env.tail

/-! ## The machine's invariant -/

/-- The invariant holds at reset. -/
def Obligations.InvariantAtReset : Prop := Inv State.reset

/-- The invariant: from every state that has it, a step gives a state that has it: `WP` within the stream, STATUS legal,
the sequencer IDLE, BUSY-waiting for the payload of the header at `WP` (R158), or BUSY with the command at `WP` and a frame
to come, `D` canonical and the replay of the trace, every frame at a legal address, and the channel's operations those of
the trace. Two clauses are not the spec's plain words: that STATUS is one of four values rests on the spec's own inference
in R134 with R135 ("the rules never produce STEP_FAILED"), and that BUSY always has a frame to come is the model's (log
entry 16, DESIGN CHOICE). -/
def Obligations.EveryStepKeepsTheInvariant : Prop :=
  ∀ s t : State, Inv s → step s = .next t → Inv t

/-- R161 with R158's host duty: over any stream of complete commands, from any command boundary and with nothing
disturbing, the run ends at IDLE with `WP = n`, in at most one step per word. That the next step then answers the fault
`runEnded` is the model's name for the end of a run (log entry 6, DESIGN CHOICE). -/
def Obligations.RunsOverCompleteCommandsEnd : Prop :=
  ∀ s : State, s.seq = .idle → s.env = [] → s.wp ≤ s.stream.length → CompleteCommands (s.stream.drop s.wp) →
    ∃ n t, n ≤ s.stream.length - s.wp ∧ Sys2Proof.core.run n s = .next t ∧ AtEnd t ∧ t.stream = s.stream ∧
      step t = .fault .runEnded
end

