-- ==== Sys2Proof/Laws/Decode.lean ====
section
/-! SUPPORT. The small lemmas of the encoding: header fields, packing and unpacking, the operand codes (R61 to R65). -/

namespace Sys2Proof

/-! ## Header fields (R61) -/

/-- Four bytes joined, bit by bit: the last byte is the least significant. -/
theorem getLsbD_join4 (a b c d : Byte) (i : Nat) :
    (a ++ b ++ c ++ d : BitVec 32).getLsbD i =
      if i < 8 then d.getLsbD i else if i < 16 then c.getLsbD (i - 8)
      else if i < 24 then b.getLsbD (i - 16) else a.getLsbD (i - 24) := by
  simp only [BitVec.getLsbD_append]
  by_cases h1 : i < 8
  · simp [h1]
  by_cases h2 : i < 16
  · simp [h1, h2, show i - 8 < 8 by omega]
  by_cases h3 : i < 24
  · simp [h1, h2, h3, show ¬ i - 8 < 8 by omega, show i - 16 < 8 by omega, show i - 8 - 8 = i - 16 by omega]
  · simp [h1, h2, h3, show ¬ i - 8 < 8 by omega, show ¬ i - 8 - 8 < 8 by omega, show i - 8 - 8 - 8 = i - 24 by omega]

/-- The byte at bits [8j+7 : 8j] of four bytes joined. -/
theorem extract_join4 (a b c d : Byte) (j : Nat) (hj : j < 4) :
    (a ++ b ++ c ++ d : BitVec 32).extractLsb' (8 * j) 8 = [d, c, b, a].getD j 0 := by
  apply BitVec.eq_of_getLsbD_eq
  intro i hi
  rw [BitVec.getLsbD_extractLsb', getLsbD_join4]
  match j, hj with
  | 0, _ => simp [hi]
  | 1, _ => simp [hi, show 8 * 1 + i < 16 by omega]
  | 2, _ => simp [hi, show 16 + i < 24 by omega, show ¬ 16 + i < 8 by omega, show ¬ 16 + i < 16 by omega]
  | 3, _ => simp [hi, show ¬ 24 + i < 8 by omega, show ¬ 24 + i < 16 by omega]

@[simp] theorem headerOpc_headerWord (opc a b r : Byte) : headerOpc (headerWord opc a b r) = opc :=
  extract_join4 opc a b r 3 (by decide)

@[simp] theorem headerA_headerWord (opc a b r : Byte) : headerA (headerWord opc a b r) = a :=
  extract_join4 opc a b r 2 (by decide)

@[simp] theorem headerB_headerWord (opc a b r : Byte) : headerB (headerWord opc a b r) = b :=
  extract_join4 opc a b r 1 (by decide)

@[simp] theorem headerR_headerWord (opc a b r : Byte) : headerR (headerWord opc a b r) = r :=
  extract_join4 opc a b r 0 (by decide)

/-- A word is its four bytes joined. -/
theorem join4_extract (w : Word) :
    (w.extractLsb' 24 8 ++ w.extractLsb' 16 8 ++ w.extractLsb' 8 8 ++ w.extractLsb' 0 8 : BitVec 32) = w := by
  apply BitVec.eq_of_getLsbD_eq
  intro i hi
  rw [getLsbD_join4]
  by_cases h1 : i < 8
  · simp [h1]
  by_cases h2 : i < 16
  · simp [h1, h2, show i - 8 < 8 by omega, show 8 + (i - 8) = i by omega]
  by_cases h3 : i < 24
  · simp [h1, h2, h3, show i - 16 < 8 by omega, show 16 + (i - 16) = i by omega]
  · simp [h1, h2, h3, show i - 24 < 8 by omega, show 24 + (i - 24) = i by omega]

/-- A header word is its four fields. -/
theorem headerWord_fields (h : Word) : headerWord (headerOpc h) (headerA h) (headerB h) (headerR h) = h :=
  join4_extract h

/-! ## The opcode map (R63) -/

@[simp] theorem opcodeOf_opcodeCode (o : Opcode) : opcodeOf (opcodeCode o) = some o := by
  cases o <;> decide

theorem opcodeCode_of_opcodeOf {b : Byte} {o : Opcode} (h : opcodeOf b = some o) : opcodeCode o = b := by
  revert b o
  decide

theorem lengthOfOpc_pos (b : Byte) : 0 < lengthOfOpc b := by
  unfold lengthOfOpc; repeat (first | split | omega)

/-! ## Operands (R64, R65) -/

@[simp] theorem unpackVector_packVector (v : BoolVec) : unpackVector (packVector v) = v := by
  obtain ⟨a, b, c, d, e, f, g, h⟩ := v
  revert a b c d e f g h
  decide

@[simp] theorem packVector_unpackVector (b : Byte) : packVector (unpackVector b) = b := by
  revert b
  decide

@[simp] theorem boolOperand_encodeBool (on : Bool) : boolOperand (encodeBool on) = some on := by
  cases on <;> decide

theorem encodeBool_of_boolOperand {b : Byte} {on : Bool} (h : boolOperand b = some on) : encodeBool on = b := by
  revert b on; decide

@[simp] theorem modeOperand_encodeMode (m : InitMode) : modeOperand (encodeMode m) = some m := by
  cases m <;> decide

theorem encodeMode_of_modeOperand {b : Byte} {m : InitMode} (h : modeOperand b = some m) : encodeMode m = b := by
  revert h; unfold modeOperand
  split
  · next h => intro e; injection e with e; subst e; exact h.symm
  · split
    · next h => intro e; injection e with e; subst e; exact h.symm
    · split
      · next h => intro e; injection e with e; subst e; exact h.symm
      · intro e; cases e

end Sys2Proof
end

