-- ==== Sys2Proof/Laws/Memory.lean ====
section
/-! SUPPORT. The device register image: a read after a write, and the canonical form every operation keeps (R26). -/

namespace Sys2Proof.Machine

@[simp] theorem Memory.read_nil (a : Addr) : Memory.read [] a = none := rfl

/-- R26: a frame sets `D[a]` and changes no other entry. -/
theorem Memory.read_write (m : Memory) (a b : Addr) (v : Byte) :
    (m.write a v).read b = if a = b then some v else m.read b := by
  have key : a.toNat = b.toNat ↔ a = b := BitVec.toNat_inj
  induction m with
  | nil => simp only [Memory.write, Memory.read, key]
  | cons c rest ih =>
    simp only [Memory.write]
    split
    · simp only [Memory.read, key]
    · split
      · next h =>
        simp only [Memory.read, key]
        by_cases hab : a = b
        · simp [hab]
        · have : c.1 ≠ b.toNat := fun hc => hab (key.1 (h.trans hc))
          simp [hab, this]
      · next h =>
        simp only [Memory.read, ih]
        by_cases hc : c.1 = b.toNat
        · have : a ≠ b := fun hab => h ((key.2 hab).trans hc.symm)
          simp [hc, this]
        · simp [hc]

/-- A lower bound may be lowered. -/
theorem Memory.wfFrom_mono {lo lo' : Nat} (h : lo' ≤ lo) : ∀ m : Memory, Memory.wfFrom lo m = true → Memory.wfFrom lo' m = true
  | [], _ => rfl
  | c :: rest, hm => by
    simp only [Memory.wfFrom, Bool.and_eq_true, decide_eq_true_eq] at hm ⊢
    exact ⟨⟨h.trans hm.1.1, hm.1.2⟩, hm.2⟩

theorem Memory.wfFrom_write (lo : Nat) (a : Addr) (v : Byte) (ha : lo ≤ a.toNat) :
    ∀ m : Memory, Memory.wfFrom lo m = true → Memory.wfFrom lo (m.write a v) = true
  | [], _ => by simp [Memory.write, Memory.wfFrom, ha, a.isLt]
  | c :: rest, hm => by
    have hlt : a.toNat < 16 := a.isLt
    simp only [Memory.wfFrom, Bool.and_eq_true, decide_eq_true_eq] at hm
    simp only [Memory.write]
    split
    · simp only [Memory.wfFrom, Bool.and_eq_true, decide_eq_true_eq]
      exact ⟨⟨ha, hlt⟩, ⟨by omega, hm.1.2⟩, hm.2⟩
    · split
      · next h => simp only [Memory.wfFrom, Bool.and_eq_true, decide_eq_true_eq]; exact ⟨⟨ha, hlt⟩, h ▸ hm.2⟩
      · simp only [Memory.wfFrom, Bool.and_eq_true, decide_eq_true_eq]
        exact ⟨hm.1, Memory.wfFrom_write (c.1 + 1) a v (by omega) rest hm.2⟩

/-- The one memory operation keeps the canonical form. -/
theorem Memory.wf_write (m : Memory) (a : Addr) (v : Byte) (h : m.wf = true) : (m.write a v).wf = true :=
  Memory.wfFrom_write 0 a v (Nat.zero_le _) m h

/-- An address below the bound is unwritten. -/
theorem Memory.read_of_wfFrom : ∀ (m : Memory) (lo : Nat) (a : Addr), Memory.wfFrom lo m = true → a.toNat < lo → m.read a = none
  | [], _, _, _, _ => rfl
  | c :: rest, lo, a, hm, ha => by
    simp only [Memory.wfFrom, Bool.and_eq_true, decide_eq_true_eq] at hm
    have : c.1 ≠ a.toNat := by omega
    simp only [Memory.read, this, if_false]
    exact Memory.read_of_wfFrom rest (c.1 + 1) a hm.2 (by omega)

/-- Canonical images that read the same everywhere are the same list. -/
theorem Memory.ext_of_wfFrom : ∀ (m m' : Memory) (lo lo' : Nat), Memory.wfFrom lo m = true → Memory.wfFrom lo' m' = true →
    (∀ a, m.read a = m'.read a) → m = m'
  | [], [], _, _, _, _, _ => rfl
  | [], c :: rest, _, _, _, hm', h => by
    simp only [Memory.wfFrom, Bool.and_eq_true, decide_eq_true_eq] at hm'
    have := h (BitVec.ofNat 4 c.1)
    simp [Memory.read, Nat.mod_eq_of_lt hm'.1.2] at this
  | c :: rest, [], _, _, hm, _, h => by
    simp only [Memory.wfFrom, Bool.and_eq_true, decide_eq_true_eq] at hm
    have := h (BitVec.ofNat 4 c.1)
    simp [Memory.read, Nat.mod_eq_of_lt hm.1.2] at this
  | c :: rest, c' :: rest', lo, lo', hm, hm', h => by
    simp only [Memory.wfFrom, Bool.and_eq_true, decide_eq_true_eq] at hm hm'
    have hc : (BitVec.ofNat 4 c.1).toNat = c.1 := by simp [Nat.mod_eq_of_lt hm.1.2]
    have hc' : (BitVec.ofNat 4 c'.1).toNat = c'.1 := by simp [Nat.mod_eq_of_lt hm'.1.2]
    have hkey : c.1 = c'.1 := by
      rcases Nat.lt_trichotomy c.1 c'.1 with hlt | heq | hgt
      · have h1 := h (BitVec.ofNat 4 c.1)
        have h2 := Memory.read_of_wfFrom rest' (c'.1 + 1) (BitVec.ofNat 4 c.1) hm'.2 (by omega)
        simp [Memory.read, hc, h2, Nat.ne_of_gt hlt] at h1
      · exact heq
      · have h1 := h (BitVec.ofNat 4 c'.1)
        have h2 := Memory.read_of_wfFrom rest (c.1 + 1) (BitVec.ofNat 4 c'.1) hm.2 (by omega)
        simp [Memory.read, hc', h2, Nat.ne_of_gt hgt] at h1
    have hval : c.2 = c'.2 := by
      have h1 := h (BitVec.ofNat 4 c.1)
      simpa [Memory.read, hc, ← hkey] using h1
    have hrest : rest = rest' := by
      refine Memory.ext_of_wfFrom rest rest' (c.1 + 1) (c'.1 + 1) hm.2 hm'.2 fun a => ?_
      have h1 := h a
      simp only [Memory.read, ← hkey] at h1
      by_cases ha : c.1 = a.toNat
      · rw [Memory.read_of_wfFrom rest _ a hm.2 (by omega), Memory.read_of_wfFrom rest' _ a hm'.2 (by omega)]
      · simpa [ha] using h1
    rw [Prod.ext hkey hval, hrest]

/-- Equal memories are equal data (R26): canonical images that read the same are equal. -/
theorem Memory.ext_of_wf {m m' : Memory} (h : m.wf = true) (h' : m'.wf = true) (hr : ∀ a, m.read a = m'.read a) : m = m' :=
  Memory.ext_of_wfFrom m m' 0 0 h h' hr

/-! ## Reads after frames -/

@[simp] theorem imageAfter_nil (m : Memory) (a : Addr) : imageAfter [] m a = m.read a := rfl

theorem lastWrite_append (fs gs : List Frame) (a : Addr) : lastWrite (fs ++ gs) a = (lastWrite gs a).or (lastWrite fs a) := by
  induction fs with
  | nil => simp [lastWrite]
  | cons f later ih => simp [lastWrite, ih, Option.or_assoc]

/-- The first frame of a list is a write before the others. -/
theorem imageAfter_cons (f : Frame) (later : List Frame) (m : Memory) (a : Addr) :
    imageAfter (f :: later) m a = imageAfter later (m.write f.addr f.value) a := by
  simp only [imageAfter, lastWrite, Memory.read_write, Option.or_assoc]
  congr 1
  split <;> simp

/-- An address no frame goes to reads as before. -/
theorem lastWrite_none {fs : List Frame} {a : Addr} (h : ∀ f ∈ fs, f.addr ≠ a) : lastWrite fs a = none := by
  induction fs with
  | nil => rfl
  | cons f later ih =>
    rw [lastWrite, ih fun g hg => h g (List.mem_cons_of_mem _ hg), if_neg (h f List.mem_cons_self)]
    rfl

end Sys2Proof.Machine
end

