-- ==== Sys2Proof/Laws/State.lean ====
section
/-! SUPPORT. One lemma per field per update of the state, each true by unfolding, so that no proof unfolds a record
update. -/

namespace Sys2Proof.Machine

/-! ## emitFrame -/

@[simp] theorem emitFrame_stream (f : Frame) (s : State) : (emitFrame f s).stream = s.stream := rfl

@[simp] theorem emitFrame_wp (f : Frame) (s : State) : (emitFrame f s).wp = s.wp := rfl

@[simp] theorem emitFrame_status (f : Frame) (s : State) : (emitFrame f s).status = s.status := rfl

@[simp] theorem emitFrame_seq (f : Frame) (s : State) : (emitFrame f s).seq = s.seq := rfl

@[simp] theorem emitFrame_dev (f : Frame) (s : State) : (emitFrame f s).dev = s.dev.write f.addr f.value := rfl

@[simp] theorem emitFrame_trace (f : Frame) (s : State) : (emitFrame f s).trace = s.trace ++ [f] := rfl

@[simp] theorem emitFrame_channel (f : Frame) (s : State) : (emitFrame f s).channel = s.channel ++ frameOps f := rfl

@[simp] theorem emitFrame_env (f : Frame) (s : State) : (emitFrame f s).env = s.env := rfl

/-! ## finish -/

@[simp] theorem finish_stream (code : ResultCode) (mask : Byte) (len : Nat) (s : State) : (finish code mask len s).stream = s.stream := rfl

@[simp] theorem finish_wp (code : ResultCode) (mask : Byte) (len : Nat) (s : State) : (finish code mask len s).wp = s.wp + len := rfl

@[simp] theorem finish_status (code : ResultCode) (mask : Byte) (len : Nat) (s : State) : (finish code mask len s).status = packStatus code mask := rfl

@[simp] theorem finish_seq (code : ResultCode) (mask : Byte) (len : Nat) (s : State) : (finish code mask len s).seq = .idle := rfl

@[simp] theorem finish_dev (code : ResultCode) (mask : Byte) (len : Nat) (s : State) : (finish code mask len s).dev = s.dev := rfl

@[simp] theorem finish_trace (code : ResultCode) (mask : Byte) (len : Nat) (s : State) : (finish code mask len s).trace = s.trace := rfl

@[simp] theorem finish_channel (code : ResultCode) (mask : Byte) (len : Nat) (s : State) : (finish code mask len s).channel = s.channel := rfl

@[simp] theorem finish_env (code : ResultCode) (mask : Byte) (len : Nat) (s : State) : (finish code mask len s).env = s.env := rfl

/-! ## blockReset -/

@[simp] theorem blockReset_stream (restart : Restart) (s : State) : (blockReset restart s).stream = s.stream := rfl

@[simp] theorem blockReset_wp (restart : Restart) (s : State) : (blockReset restart s).wp = restartWp restart s.wp := rfl

@[simp] theorem blockReset_status (restart : Restart) (s : State) : (blockReset restart s).status = 0x0000 := rfl

@[simp] theorem blockReset_seq (restart : Restart) (s : State) : (blockReset restart s).seq = .idle := rfl

@[simp] theorem blockReset_dev (restart : Restart) (s : State) : (blockReset restart s).dev = s.dev := rfl

@[simp] theorem blockReset_trace (restart : Restart) (s : State) : (blockReset restart s).trace = s.trace := rfl

@[simp] theorem blockReset_channel (restart : Restart) (s : State) : (blockReset restart s).channel = s.channel := rfl

@[simp] theorem blockReset_env (restart : Restart) (s : State) : (blockReset restart s).env = s.env := rfl

/-! ## spendEvent -/

@[simp] theorem spendEvent_stream (n : Nat) (s : State) : (spendEvent n s).stream = s.stream := rfl

@[simp] theorem spendEvent_wp (n : Nat) (s : State) : (spendEvent n s).wp = s.wp := rfl

@[simp] theorem spendEvent_status (n : Nat) (s : State) : (spendEvent n s).status = s.status := rfl

@[simp] theorem spendEvent_seq (n : Nat) (s : State) : (spendEvent n s).seq = s.seq := rfl

@[simp] theorem spendEvent_dev (n : Nat) (s : State) : (spendEvent n s).dev = s.dev := rfl

@[simp] theorem spendEvent_trace (n : Nat) (s : State) : (spendEvent n s).trace = s.trace := rfl

@[simp] theorem spendEvent_channel (n : Nat) (s : State) : (spendEvent n s).channel = s.channel := rfl

/-! ## awaitPayload -/

@[simp] theorem awaitPayload_stream (s : State) : (awaitPayload s).stream = s.stream := rfl

@[simp] theorem awaitPayload_wp (s : State) : (awaitPayload s).wp = s.wp := rfl

@[simp] theorem awaitPayload_status (s : State) : (awaitPayload s).status = s.status := rfl

@[simp] theorem awaitPayload_seq (s : State) : (awaitPayload s).seq = .waiting := rfl

@[simp] theorem awaitPayload_dev (s : State) : (awaitPayload s).dev = s.dev := rfl

@[simp] theorem awaitPayload_trace (s : State) : (awaitPayload s).trace = s.trace := rfl

@[simp] theorem awaitPayload_channel (s : State) : (awaitPayload s).channel = s.channel := rfl

/-! ## placeCommand -/

@[simp] theorem placeCommand_stream (ws : List Word) (s : State) : (placeCommand ws s).stream = placeWords s.stream s.wp ws := rfl

@[simp] theorem placeCommand_wp (ws : List Word) (s : State) : (placeCommand ws s).wp = s.wp := rfl

@[simp] theorem placeCommand_status (ws : List Word) (s : State) : (placeCommand ws s).status = s.status := rfl

@[simp] theorem placeCommand_seq (ws : List Word) (s : State) : (placeCommand ws s).seq = .idle := rfl

@[simp] theorem placeCommand_dev (ws : List Word) (s : State) : (placeCommand ws s).dev = s.dev := rfl

@[simp] theorem placeCommand_trace (ws : List Word) (s : State) : (placeCommand ws s).trace = s.trace := rfl

@[simp] theorem placeCommand_channel (ws : List Word) (s : State) : (placeCommand ws s).channel = s.channel := rfl

@[simp] theorem placeCommand_env (ws : List Word) (s : State) : (placeCommand ws s).env = [] := rfl

/-- A quiet step uses up the event at the head of the schedule, if there is one. -/
@[simp] theorem spendEvent_env_quiet (n : Nat) (s : State) (h : nextEvent s = .quiet) :
    (spendEvent n s).env = s.env.tail := by
  unfold nextEvent at h
  unfold spendEvent
  split at h <;> simp_all

end Sys2Proof.Machine
end

