-- ==== Sys2Proof/Laws/Ops.lean ====
section
/-! SUPPORT. What the shared operations can do, said once: emitting frames, running a plan, accepting a command, and one
step. Proofs cite these instead of unfolding the operations. -/

namespace Sys2Proof.Machine

/-! ## Emitting frames -/

@[simp] theorem emitAll_nil (s : State) : emitAll [] s = s := rfl

theorem emitAll_append (fs gs : List Frame) (s : State) : emitAll (fs ++ gs) s = emitAll gs (emitAll fs s) := by
  induction fs generalizing s with
  | nil => rfl
  | cons f later ih => exact ih _

@[simp] theorem emitAll_stream (fs : List Frame) (s : State) : (emitAll fs s).stream = s.stream := by
  induction fs generalizing s with
  | nil => rfl
  | cons f later ih => simp [emitAll, ih]

@[simp] theorem emitAll_wp (fs : List Frame) (s : State) : (emitAll fs s).wp = s.wp := by
  induction fs generalizing s with
  | nil => rfl
  | cons f later ih => simp [emitAll, ih]

@[simp] theorem emitAll_status (fs : List Frame) (s : State) : (emitAll fs s).status = s.status := by
  induction fs generalizing s with
  | nil => rfl
  | cons f later ih => simp [emitAll, ih]

@[simp] theorem emitAll_seq (fs : List Frame) (s : State) : (emitAll fs s).seq = s.seq := by
  induction fs generalizing s with
  | nil => rfl
  | cons f later ih => simp [emitAll, ih]

@[simp] theorem emitAll_env (fs : List Frame) (s : State) : (emitAll fs s).env = s.env := by
  induction fs generalizing s with
  | nil => rfl
  | cons f later ih => simp [emitAll, ih]

@[simp] theorem emitAll_trace (fs : List Frame) (s : State) : (emitAll fs s).trace = s.trace ++ fs := by
  induction fs generalizing s with
  | nil => simp
  | cons f later ih => simp [emitAll, ih]

@[simp] theorem emitAll_channel (fs : List Frame) (s : State) :
    (emitAll fs s).channel = s.channel ++ fs.flatMap frameOps := by
  induction fs generalizing s with
  | nil => simp
  | cons f later ih => simp [emitAll, ih]

theorem emitAll_dev_read (fs : List Frame) (s : State) (a : Addr) : (emitAll fs s).dev.read a = imageAfter fs s.dev a := by
  induction fs generalizing s with
  | nil => rfl
  | cons f later ih => rw [emitAll, ih, imageAfter_cons, emitFrame_dev]

/-- Emitting frames keeps the canonical form of the register image. -/
theorem emitAll_dev_wf (fs : List Frame) (s : State) (h : s.dev.wf = true) : (emitAll fs s).dev.wf = true := by
  induction fs generalizing s with
  | nil => exact h
  | cons f later ih => exact ih _ (Memory.wf_write _ _ _ h)

/-! ## The environment of a step -/

theorem framesBefore_le (e : EnvEvent) (n : Nat) : framesBefore e n ≤ n := by
  cases e <;> simp [framesBefore]

@[simp] theorem nextEvent_emitAll (fs : List Frame) (s : State) : nextEvent (emitAll fs s) = nextEvent s := by
  simp [nextEvent]

/-! ## Running a plan -/

/-- What every part of a plan's run leaves behind: `fs` emitted, the stream as it was. -/
structure Emitted (fs : List Frame) (s t : State) : Prop where
  trace : t.trace = s.trace ++ fs
  channel : t.channel = s.channel ++ fs.flatMap frameOps
  dev : ∀ a, t.dev.read a = imageAfter fs s.dev a
  devCanonical : s.dev.wf = true → t.dev.wf = true
  stream : t.stream = s.stream

/-- How the run of a plan ends within one step (R25, R138, R150 to R152, R159). -/
inductive RunEnd (len : Nat) (mark : Nat → Sequencer) (p : Plan) (k n : Nat) (s t : State) : Prop where
  | done (all : n = (p.frames.drop k).length) (status : t.status = packStatus p.code p.mask) (wp : t.wp = s.wp + len)
      (seq : t.seq = .idle)
  | held (more : n < (p.frames.drop k).length) (status : t.status = s.status) (wp : t.wp = s.wp) (seq : t.seq = mark (k + n))
  | abandoned (restart : Restart) (le : n ≤ (p.frames.drop k).length) (status : t.status = 0x0000)
      (wp : t.wp = restartWp restart s.wp) (seq : t.seq = .idle)

theorem emitted_spend (fs : List Frame) (n : Nat) (s : State) : Emitted fs s (spendEvent n (emitAll fs s)) :=
  ⟨by simp, by simp, fun a => by simp [emitAll_dev_read], fun h => by simpa using emitAll_dev_wf fs s h, by simp⟩

/-- Everything `runPlan` can do: some of the remaining frames go out in order, and the run is done, held or abandoned. -/
theorem runPlan_spec (len : Nat) (mark : Nat → Sequencer) (p : Plan) (k : Nat) (s : State) :
    ∃ n, Emitted ((p.frames.drop k).take n) s (runPlan len mark p k s) ∧
      RunEnd len mark p k n s (runPlan len mark p k s) := by
  obtain ⟨h1, h2, h3, h4, h5⟩ :=
    emitted_spend ((p.frames.drop k).take (framesBefore (nextEvent s) (p.frames.drop k).length))
      (framesBefore (nextEvent s) (p.frames.drop k).length) s
  have hle := framesBefore_le (nextEvent s) (p.frames.drop k).length
  refine ⟨framesBefore (nextEvent s) (p.frames.drop k).length, ?_⟩
  simp only [runPlan]
  cases he : nextEvent s with
  | quiet =>
    rw [he] at h1 h2 h3 h4 h5
    exact ⟨⟨h1, h2, h3, h4, h5⟩, .done rfl rfl (by simp) rfl⟩
  | late =>
    rw [he] at h1 h2 h3 h4 h5
    exact ⟨⟨h1, h2, h3, h4, h5⟩, .done rfl rfl (by simp) rfl⟩
  | hold m =>
    rw [he] at h1 h2 h3 h4 h5 hle
    dsimp only
    split
    · next hlt => exact ⟨⟨h1, h2, h3, h4, h5⟩, .held hlt (by simp) (by simp) rfl⟩
    · next hge => exact ⟨⟨h1, h2, h3, h4, h5⟩, .done (by omega) rfl (by simp) rfl⟩
  | stall m =>
    rw [he] at h1 h2 h3 h4 h5 hle
    dsimp only
    split
    · next hlt => exact ⟨⟨h1, h2, h3, h4, h5⟩, .held hlt (by simp) (by simp) rfl⟩
    · next hge => exact ⟨⟨h1, h2, h3, h4, h5⟩, .done (by omega) rfl (by simp) rfl⟩
  | reset m restart =>
    rw [he] at h1 h2 h3 h4 h5 hle
    exact ⟨⟨h1, h2, h3, h4, h5⟩, .abandoned restart hle rfl (by simp) rfl⟩

/-- An undisturbed run from the first frame on completes. -/
theorem runPlan_completed (len : Nat) (mark : Nat → Sequencer) (p : Plan) (s : State) (h : nextEvent s = .quiet) :
    Completed len p.frames (packStatus p.code p.mask) s (runPlan len mark p 0 s) := by
  have hr : runPlan len mark p 0 s = finish p.code p.mask len (spendEvent p.frames.length (emitAll p.frames s)) := by
    simp [runPlan, h, framesBefore]
  rw [hr]
  exact ⟨by simp, by simp, fun a => by simp [emitAll_dev_read], rfl, by simp, rfl, by simp⟩

/-- A quiet run uses up one event of the schedule. -/
theorem runPlan_env_quiet (len : Nat) (mark : Nat → Sequencer) (p : Plan) (k : Nat) (s : State) (h : nextEvent s = .quiet) :
    (runPlan len mark p k s).env = s.env.tail := by
  simp [runPlan, h]

/-! ## Taking a command (R68, R158) -/

/-- With any event but `late`, or for a command without payload, taking a command is running its plan. -/
theorem takeCommand_run (len : Nat) (mark : Nat → Sequencer) (p : Plan) (s : State) (h : payloadLate len s = false) :
    takeCommand len mark p s = runPlan len mark p 0 s := by
  simp [takeCommand, h]

theorem payloadLate_eq_false {len : Nat} {s : State} (h : nextEvent s ≠ .late) : payloadLate len s = false := by
  unfold payloadLate
  split
  · next he => exact absurd he h
  all_goals rfl

theorem payloadLate_iff (len : Nat) (s : State) : payloadLate len s = true ↔ nextEvent s = .late ∧ 1 < len := by
  unfold payloadLate
  cases nextEvent s <;> simp

theorem takeCommand_quiet (len : Nat) (mark : Nat → Sequencer) (p : Plan) (s : State) (h : nextEvent s = .quiet) :
    takeCommand len mark p s = runPlan len mark p 0 s :=
  takeCommand_run len mark p s (payloadLate_eq_false (by simp [h]))

/-- Everything `takeCommand` can do: the block waits for late payload, or the command's plan is run. -/
theorem takeCommand_cases (len : Nat) (mark : Nat → Sequencer) (p : Plan) (s : State) :
    (nextEvent s = .late ∧ 1 < len ∧ takeCommand len mark p s = awaitPayload s) ∨
      takeCommand len mark p s = runPlan len mark p 0 s := by
  by_cases h : payloadLate len s = true
  · obtain ⟨he, hl⟩ := (payloadLate_iff len s).1 h
    exact .inl ⟨he, hl, by simp [takeCommand, h]⟩
  · exact .inr (takeCommand_run len mark p s (by simpa using h))

/-- Waiting for payload emits nothing. -/
theorem emitted_awaitPayload (s : State) : Emitted [] s (awaitPayload s) :=
  ⟨by simp, by simp, fun _ => rfl, fun h => h, rfl⟩

theorem emitAll_setSeq (fs : List Frame) (q : Sequencer) (s : State) :
    emitAll fs { s with seq := q } = { emitAll fs s with seq := q } := by
  induction fs generalizing s with
  | nil => rfl
  | cons f later ih => exact ih (emitFrame f s)

theorem runPlan_setSeq (len : Nat) (mark : Nat → Sequencer) (p : Plan) (k : Nat) (q : Sequencer) (s : State) :
    runPlan len mark p k { s with seq := q } = runPlan len mark p k s := by
  have hn : nextEvent { s with seq := q } = nextEvent s := rfl
  simp only [runPlan, hn, emitAll_setSeq]
  cases nextEvent s with
  | hold m => dsimp only; split <;> rfl
  | stall m => dsimp only; split <;> rfl
  | quiet | late | reset => rfl

/-- What becomes of a command does not depend on the sequencer it is taken from: IDLE or BUSY-waiting. -/
theorem takeCommand_setSeq (len : Nat) (mark : Nat → Sequencer) (p : Plan) (q : Sequencer) (s : State) :
    takeCommand len mark p { s with seq := q } = takeCommand len mark p s := by
  have hl : payloadLate len { s with seq := q } = payloadLate len s := rfl
  have hw : awaitPayload { s with seq := q } = awaitPayload s := rfl
  simp only [takeCommand, hl, hw, runPlan_setSeq]

/-! ## Commands -/

/-- The meaning of every command is `accept` on its plan. -/
theorem exec_eq_accept (i : Instr) (s : State) : exec i s = accept i (planOf i) s := by
  cases i <;> rfl

theorem accept_idle (i : Instr) (p : Plan) (s : State) (h : s.seq = .idle) :
    accept i p s = .next (takeCommand (commandLength i) (Sequencer.busy i) p s) := by
  simp [accept, h]

theorem exec_idle (i : Instr) (s : State) (h : s.seq = .idle) :
    exec i s = .next (takeCommand (commandLength i) (Sequencer.busy i) (planOf i) s) := by
  rw [exec_eq_accept, accept_idle i _ s h]

/-- A command in an undisturbed state completes with the frames and the result of its plan. -/
theorem exec_completes (i : Instr) (s : State) (h : Undisturbed s) :
    Completes i (commandLength i) (planOf i).frames (packStatus (planOf i).code (planOf i).mask) s :=
  ⟨_, exec_idle i s h.1, takeCommand_quiet _ _ _ s h.2 ▸ runPlan_completed _ _ _ s h.2⟩

/-- If `exec` answers a next state, the block was IDLE and took the command. -/
theorem exec_next {i : Instr} {s t : State} (h : exec i s = .next t) :
    s.seq = .idle ∧ t = takeCommand (commandLength i) (Sequencer.busy i) (planOf i) s := by
  rw [exec_eq_accept] at h
  unfold accept at h
  split at h
  · next hs => injection h with h; exact ⟨hs, h.symm⟩
  · cases h
  · cases h

/-! ## One step -/

/-- Everything one step can do, by the state of the sequencer and the words at `WP`. -/
inductive StepCase (s t : State) : Prop where
  /-- a command is taken, from IDLE or with its payload awaited -/
  | taken (i : Instr) (seq : s.seq = .idle ∨ s.seq = .waiting) (at_wp : fetch s = .command i)
      (run : t = takeCommand (commandLength i) (Sequencer.busy i) (planOf i) s)
  /-- a command in progress goes on -/
  | resumed (i : Instr) (k : Nat) (seq : s.seq = .busy i k)
      (run : t = runPlan (commandLength i) (Sequencer.busy i) (planOf i) k s)
  /-- an ILLEGAL command is answered -/
  | illegal (why : IllegalReason) (len : Nat) (seq : s.seq = .idle ∨ s.seq = .waiting) (at_wp : fetch s = .illegal why len)
      (run : t = runIllegal len s)
  /-- a header is taken whose payload words are not all there -/
  | waits (len : Nat) (seq : s.seq = .idle) (at_wp : fetch s = .incomplete len) (run : t = awaitPayload s)
  /-- the host resets a block that has no complete command on offer -/
  | resetOnly (frames : Nat) (restart : Restart) (seq : s.seq = .idle ∨ s.seq = .waiting)
      (event : nextEvent s = .reset frames restart)
      (run : t = blockReset restart (spendEvent 0 s))

theorem stopUnlessReset_next {why : Fault} {s t : State} (h : stopUnlessReset why s = .next t) :
    ∃ m restart, nextEvent s = .reset m restart ∧ t = blockReset restart (spendEvent 0 s) := by
  unfold stopUnlessReset at h
  split at h
  · next m restart he => injection h with h; exact ⟨m, restart, he, h.symm⟩
  all_goals cases h

/-- Everything an IDLE block can do with a header whose payload is missing. -/
theorem waitUnlessReset_cases (s : State) : waitUnlessReset s = awaitPayload s ∨
    ∃ m restart, nextEvent s = .reset m restart ∧ waitUnlessReset s = blockReset restart (spendEvent 0 s) := by
  unfold waitUnlessReset
  split
  · next m restart he => exact .inr ⟨m, restart, he, rfl⟩
  all_goals exact .inl rfl

/-- A run of `n + 1` steps whose first step answers `t` is a run of `n` steps from `t`. -/
theorem run_succ_of_next {s t : State} (h : step s = .next t) (n : Nat) :
    Sys2Proof.core.run (n + 1) s = Sys2Proof.core.run n t := by
  have h' : Sys2Proof.core.step s = .next t := h
  simp only [Host.Core.run, h']

@[simp] theorem run_zero (s : State) : Sys2Proof.core.run 0 s = .next s := rfl

/-- A command without frames (an error, an ILLEGAL header) is over within its step, unless a reset comes first. -/
theorem runPlan_no_frames (len : Nat) (mark : Nat → Sequencer) (p : Plan) (k : Nat) (s : State) (h : p.frames = []) :
    runPlan len mark p k s = match nextEvent s with
      | .reset _ restart => blockReset restart (spendEvent 0 s)
      | .quiet => finish p.code p.mask len (spendEvent 0 s)
      | .late => finish p.code p.mask len (spendEvent 0 s)
      | .hold _ => finish p.code p.mask len (spendEvent 0 s)
      | .stall _ => finish p.code p.mask len (spendEvent 0 s) := by
  simp only [runPlan, h, List.drop_nil, List.length_nil, List.take_nil, emitAll_nil, Nat.not_lt_zero, if_false]
  cases nextEvent s <;> simp [framesBefore]

/-- The inversion of `step`. -/
theorem step_next {s t : State} (h : step s = .next t) : StepCase s t := by
  unfold step at h
  split at h
  · next i k hs =>
    unfold resume at h
    split at h
    · cases h
    · injection h with h; exact .resumed i k hs h.symm
  · next hs =>
    unfold resumeWaiting at h
    split at h
    · next i hf => exact .taken i (.inr hs) hf ((exec_next h).2.trans (takeCommand_setSeq ..))
    · next why len hf => injection h with h; exact .illegal why len (.inr hs) hf h.symm
    all_goals obtain ⟨m, restart, he, ht⟩ := stopUnlessReset_next h; exact .resetOnly m restart (.inr hs) he ht
  · next hs =>
    split at h
    · next i hf => exact .taken i (.inl hs) hf (exec_next h).2
    · next why len hf => injection h with h; exact .illegal why len (.inl hs) hf h.symm
    · next len hf =>
      injection h with h
      rcases waitUnlessReset_cases s with hw | ⟨m, restart, he, hw⟩
      · exact .waits len hs hf (h.symm.trans hw)
      · exact .resetOnly m restart (.inl hs) he (h.symm.trans hw)
    · obtain ⟨m, restart, he, ht⟩ := stopUnlessReset_next h; exact .resetOnly m restart (.inl hs) he ht

end Sys2Proof.Machine
end

