-- ==== Sys2Proof/Laws/Operands.lean ====
section
/-! SUPPORT. What the shared operand functions give: digit addresses, the digit loop as decimal digits (R91), the result
of an aggregate command (R134), and the length of a decoded command (R68). -/

namespace Sys2Proof.Machine

/-- R27, R96: digit `i` is at address `i + 1`. -/
@[simp] theorem digitAddr_eq (i : Nat) : digitAddr Config.params i = BitVec.ofNat 4 (i + 1) := by
  have : digitAddr Config.params i = 1#4 + BitVec.ofNat 4 i := rfl
  rw [this, show i + 1 = 1 + i by omega, BitVec.ofNat_add]

@[simp] theorem digitAddr_msd (o : BcdIntOrder) (i : Nat) :
    digitAddr { Config.params with bcdIntOrder := o } i = BitVec.ofNat 4 (i + 1) := digitAddr_eq i

/-- R91: the loop's running magnitude after `i` turns is `M div 10^i`, so turn `i` writes `dec(M, i)`. -/
theorem digitLoop_eq (p : Params) (pos : Nat → Nat) (n i m : Nat) :
    digitLoop p pos n i (m / 10 ^ i) =
      (List.range' i n).map fun j => digitFrame p (pos j) (BitVec.ofNat 8 (dec m j)) := by
  induction n generalizing i with
  | zero => rfl
  | succ n ih =>
    have hd : m / 10 ^ i / 10 = m / 10 ^ (i + 1) := by rw [Nat.div_div_eq_div_mul, Nat.pow_succ]
    simp only [digitLoop, List.range'_succ, List.map_cons, hd, ih, dec]

/-- The whole digit loop: the digits of `M` at the positions the command gives (R91, R92, R102). -/
theorem digitLoop_zero (p : Params) (pos : Nat → Nat) (n m : Nat) :
    digitLoop p pos n 0 m = (List.range n).map fun j => digitFrame p (pos j) (BitVec.ofNat 8 (dec m j)) := by
  have h := digitLoop_eq p pos n 0 m
  simpa [List.range_eq_range'] using h

theorem dec_lt (m i : Nat) : dec m i < 10 := Nat.mod_lt _ (by decide)

/-- A decimal digit fits its register (R28, R29). -/
theorem dec_toNat (m i : Nat) : (BitVec.ofNat 8 (dec m i)).toNat = dec m i := by
  have := dec_lt m i
  simp only [BitVec.toNat_ofNat]
  omega

/-- Steps that do not fail give an aggregate command with no failed step (R134, R135). -/
theorem stepMask_no_failure (steps : List StepRun) (h : ∀ x ∈ steps, x.failed = false) :
    stepMask (steps.map StepRun.failed) = 0 := by
  induction steps with
  | nil => rfl
  | cons x later ih =>
    simp [stepMask, h x List.mem_cons_self, ih fun y hy => h y (List.mem_cons_of_mem _ hy)]

theorem aggregate_no_failure (steps : List StepRun) (h : ∀ x ∈ steps, x.failed = false) :
    aggregate steps = { frames := steps.flatMap StepRun.frames, code := .ok, mask := 0 } := by
  simp [aggregate, stepMask_no_failure steps h]

/-- Every step of `display_matrix` succeeds, so its plan is the eight row frames (R82). -/
theorem planDisplayMatrix_eq (p : Params) (m : BoolMatrix) :
    planDisplayMatrix p m = emitThenOk ((matrixRows m).zipIdx.map fun (row, r) => digitFrame p r (packVector row)) := by
  simp [planDisplayMatrix, matrixRows, matrixStep, emitStep, aggregate, stepMask, emitThenOk]

/-- The plan of `display_matrix`, frame by frame (R82). -/
theorem planOf_displayMatrix (m : BoolMatrix) : planOf (.displayMatrix m) =
    emitThenOk [⟨0x1, packVector m.m0⟩, ⟨0x2, packVector m.m1⟩, ⟨0x3, packVector m.m2⟩, ⟨0x4, packVector m.m3⟩,
      ⟨0x5, packVector m.m4⟩, ⟨0x6, packVector m.m5⟩, ⟨0x7, packVector m.m6⟩, ⟨0x8, packVector m.m7⟩] := by
  rw [planOf, planDisplayMatrix_eq]
  simp [matrixRows, digitFrame]

/-- The plan of `init RAW` and `init BCD`: no step fails (R116). -/
theorem planInit_raw (p : Params) :
    planInit p .raw = emitThenOk ([⟨p.scanLimitAddr, p.initScanLimit⟩, ⟨p.intensityAddr, p.initIntensity⟩,
      ⟨p.powerAddr, p.powerOn⟩] ++ clearFrames p) := by
  simp [planInit, initSteps, emitStep, aggregate, stepMask, emitThenOk]

theorem planInit_bcd (p : Params) :
    planInit p .bcd = emitThenOk ([⟨p.scanLimitAddr, p.initScanLimit⟩, ⟨p.intensityAddr, p.initIntensity⟩,
      ⟨p.powerAddr, p.powerOn⟩] ++ clearFrames p ++ [⟨p.decodeModeAddr, p.initDecode⟩]) := by
  simp [planInit, initSteps, emitStep, aggregate, stepMask, emitThenOk]

/-- A plan that raises an error has no frames (R136). -/
@[simp] theorem raiseError_frames (c : ResultCode) : (raiseError c).frames = [] := rfl

@[simp] theorem emitThenOk_frames (fs : List Frame) : (emitThenOk fs).frames = fs := rfl

@[simp] theorem raiseError_code (c : ResultCode) : (raiseError c).code = c := rfl

@[simp] theorem raiseError_mask (c : ResultCode) : (raiseError c).mask = 0 := rfl

@[simp] theorem emitThenOk_code (fs : List Frame) : (emitThenOk fs).code = .ok := rfl

@[simp] theorem emitThenOk_mask (fs : List Frame) : (emitThenOk fs).mask = 0 := rfl

/-! ## The STATUS values the block produces (R22, R23) -/

@[simp] theorem packStatus_ok : packStatus .ok 0#8 = 0#16 := by decide

@[simp] theorem packStatus_outOfRange : packStatus .outOfRange 0#8 = 1#16 := by decide

@[simp] theorem packStatus_overflow : packStatus .overflow 0#8 = 3#16 := by decide

@[simp] theorem packStatus_illegal : packStatus .illegal 0#8 = 4#16 := by decide

/-! ## The length of a decoded command -/

@[simp] theorem commandLength_displayByte (a b : Byte) : commandLength (.displayByte a b) = 1 := rfl

@[simp] theorem commandLength_displayVector (a : Byte) (v : BoolVec) : commandLength (.displayVector a v) = 1 := rfl

@[simp] theorem commandLength_displayMatrix (m : BoolMatrix) : commandLength (.displayMatrix m) = 3 := rfl

@[simp] theorem commandLength_displayBcdDigit (a b : Byte) : commandLength (.displayBcdDigit a b) = 1 := rfl

@[simp] theorem commandLength_displayBcdInt (v : Int) (a : Byte) : commandLength (.displayBcdInt v a) = 2 := rfl

@[simp] theorem commandLength_displayFixed (v : Int) (a b : Byte) : commandLength (.displayFixed v a b) = 2 := rfl

@[simp] theorem commandLength_setDecodeMode (b : Byte) : commandLength (.setDecodeMode b) = 1 := rfl

@[simp] theorem commandLength_setIntensity (b : Byte) : commandLength (.setIntensity b) = 1 := rfl

@[simp] theorem commandLength_setScanLimit (b : Byte) : commandLength (.setScanLimit b) = 1 := rfl

@[simp] theorem commandLength_setPower (b : Bool) : commandLength (.setPower b) = 1 := rfl

@[simp] theorem commandLength_setDisplayTest (b : Bool) : commandLength (.setDisplayTest b) = 1 := rfl

@[simp] theorem commandLength_clear : commandLength .clear = 1 := rfl

@[simp] theorem commandLength_init (m : InitMode) : commandLength (.init m) = 1 := rfl

theorem buildInstr_opcode {o : Opcode} {a b : Byte} {ws : List Word} {i : Instr} (h : buildInstr o a b ws = some i) :
    opcodeOfInstr i = o := by
  cases o <;> simp only [buildInstr] at h
  case displayByte | displayVector | displayBcdDigit | displayFixed => cases h; rfl
  case displayMatrix | displayBcdInt | setDecodeMode | setIntensity | setScanLimit | clear =>
    split at h <;> cases h; rfl
  case setPower | setDisplayTest | init =>
    split at h
    · obtain ⟨x, -, rfl⟩ := Option.map_eq_some_iff.1 h; rfl
    · cases h

/-- A decoded command has the opcode and the length its header gives, and all its words are there (R68). -/
theorem decode_command {h : Word} {payload : List Word} {i : Instr} (hd : decode (h :: payload) = .command i) :
    opcodeOf (headerOpc h) = some (opcodeOfInstr i) ∧ headerR h = 0#8 ∧
      buildInstr (opcodeOfInstr i) (headerA h) (headerB h) payload = some i ∧
      commandLength i = lengthOfOpc (headerOpc h) ∧ commandLength i ≤ payload.length + 1 := by
  simp only [decode] at hd
  split at hd
  · cases hd
  · next hlen =>
    unfold decodeComplete at hd
    split at hd
    · cases hd
    · next o ho =>
      split at hd
      · next hr =>
        split at hd
        · next j hj =>
          injection hd with hd
          subst hd
          have := buildInstr_opcode hj
          have hl : commandLength j = lengthOfOpc (headerOpc h) := by
            rw [commandLength, this, opcodeCode_of_opcodeOf ho]
          exact ⟨this ▸ ho, hr, this ▸ hj, hl, by omega⟩
        · cases hd
      · cases hd

/-- The length an ILLEGAL command takes is its header's (R67, R68). -/
theorem decode_illegal {h : Word} {payload : List Word} {why : IllegalReason} {len : Nat}
    (hd : decode (h :: payload) = .illegal why len) :
    len = lengthOfOpc (headerOpc h) ∧ lengthOfOpc (headerOpc h) ≤ payload.length + 1 := by
  simp only [decode] at hd
  split at hd
  · cases hd
  · next hlen =>
    refine ⟨?_, by omega⟩
    unfold decodeComplete at hd
    split at hd
    · injection hd with _ e; exact e.symm
    · split at hd
      · split at hd
        · cases hd
        · injection hd with _ e; exact e.symm
      · injection hd with _ e; exact e.symm

end Sys2Proof.Machine
end

