-- ==== Sys2Proof/Laws/PerInstr.lean ====
section
/-! SUPPORT. Per command: its encoding is the row of spec/opcode_table.json, with the row's fixed bits and length. -/

namespace Sys2Proof.Laws.TableRow

/-- The row's "match", as its four header bytes. -/
def matchWord : Opcode → Word
  | .displayByte => headerWord 0x01 0x00 0x00 0x00
  | .displayVector => headerWord 0x02 0x00 0x00 0x00
  | .displayMatrix => headerWord 0x03 0x00 0x00 0x00
  | .displayBcdDigit => headerWord 0x04 0x00 0x00 0x00
  | .displayBcdInt => headerWord 0x05 0x00 0x00 0x00
  | .displayFixed => headerWord 0x06 0x00 0x00 0x00
  | .setDecodeMode => headerWord 0x10 0x00 0x00 0x00
  | .setIntensity => headerWord 0x11 0x00 0x00 0x00
  | .setScanLimit => headerWord 0x12 0x00 0x00 0x00
  | .setPower => headerWord 0x13 0x00 0x00 0x00
  | .setDisplayTest => headerWord 0x14 0x00 0x00 0x00
  | .clear => headerWord 0x18 0x00 0x00 0x00
  | .init => headerWord 0x19 0x00 0x00 0x00

/-- The row's "mask", as its four header bytes. -/
def maskWord : Opcode → Word
  | .displayByte => headerWord 0xFF 0x00 0x00 0xFF
  | .displayVector => headerWord 0xFF 0x00 0x00 0xFF
  | .displayMatrix => headerWord 0xFF 0xFF 0xFF 0xFF
  | .displayBcdDigit => headerWord 0xFF 0x00 0x00 0xFF
  | .displayBcdInt => headerWord 0xFF 0x00 0xFF 0xFF
  | .displayFixed => headerWord 0xFF 0x00 0x00 0xFF
  | .setDecodeMode => headerWord 0xFF 0xFF 0x00 0xFF
  | .setIntensity => headerWord 0xFF 0xFF 0x00 0xFF
  | .setScanLimit => headerWord 0xFF 0xFF 0x00 0xFF
  | .setPower => headerWord 0xFF 0xFF 0xFE 0xFF
  | .setDisplayTest => headerWord 0xFF 0xFF 0xFE 0xFF
  | .clear => headerWord 0xFF 0xFF 0xFF 0xFF
  | .init => headerWord 0xFF 0x00 0xFF 0xFF

/-- The row's "length_words". -/
def lengthWords : Opcode → Nat
  | .displayMatrix => 3
  | .displayBcdInt => 2
  | .displayFixed => 2
  | .displayByte => 1
  | .displayVector => 1
  | .displayBcdDigit => 1
  | .setDecodeMode => 1
  | .setIntensity => 1
  | .setScanLimit => 1
  | .setPower => 1
  | .setDisplayTest => 1
  | .clear => 1
  | .init => 1

/-- The command's header has its row's fixed bits, and its words are as many as the row says. -/
def Statement (i : Instr) : Prop :=
  (∃ h payload, encode i = h :: payload ∧ h &&& maskWord (opcodeOfInstr i) = matchWord (opcodeOfInstr i)) ∧
    (encode i).length = lengthWords (opcodeOfInstr i)

/-- Masking a header masks its fields. -/
theorem headerWord_and (o a b r o' a' b' r' : Byte) :
    headerWord o a b r &&& headerWord o' a' b' r' = headerWord (o &&& o') (a &&& a') (b &&& b') (r &&& r') := by
  apply BitVec.eq_of_getLsbD_eq
  intro i hi
  simp only [headerWord, BitVec.getLsbD_and, getLsbD_join4]
  split <;> [rfl; (split <;> [rfl; (split <;> rfl)])]

/-- A header whose fields keep the row's fixed bits has the row's fixed bits. -/
theorem statement_of_fields (i : Instr) (mo ma mb mr o a b r : Byte)
    (hmask : maskWord (opcodeOfInstr i) = headerWord mo ma mb mr) (hmatch : matchWord (opcodeOfInstr i) = headerWord o a b r)
    (ho : opcodeCode (opcodeOfInstr i) &&& mo = o) (ha : encodeA i &&& ma = a) (hb : encodeB i &&& mb = b) (hr : 0#8 &&& mr = r)
    (hl : (encode i).length = lengthWords (opcodeOfInstr i)) : Statement i :=
  ⟨⟨_, _, rfl, by rw [hmask, hmatch, headerWord_and, ho, ha, hb, hr]⟩, hl⟩

theorem displayByte (row value : Byte) : Statement (.displayByte row value) :=
  statement_of_fields _ _ _ _ _ _ _ _ _ rfl rfl (show (0x01 : Byte) &&& 0xFF = 0x01 by decide) BitVec.and_zero BitVec.and_zero (by decide) rfl

theorem displayVector (row : Byte) (vector : BoolVec) : Statement (.displayVector row vector) :=
  statement_of_fields _ _ _ _ _ _ _ _ _ rfl rfl (show (0x02 : Byte) &&& 0xFF = 0x02 by decide) BitVec.and_zero BitVec.and_zero (by decide) rfl

theorem displayMatrix (matrix : BoolMatrix) : Statement (.displayMatrix matrix) :=
  statement_of_fields _ _ _ _ _ _ _ _ _ rfl rfl (show (0x03 : Byte) &&& 0xFF = 0x03 by decide) (by simp [encodeA]) (by simp [encodeB]) (by decide) rfl

theorem displayBcdDigit (digit value : Byte) : Statement (.displayBcdDigit digit value) :=
  statement_of_fields _ _ _ _ _ _ _ _ _ rfl rfl (show (0x04 : Byte) &&& 0xFF = 0x04 by decide) BitVec.and_zero BitVec.and_zero (by decide) rfl

theorem displayBcdInt (value : Int) (segments : Byte) : Statement (.displayBcdInt value segments) :=
  statement_of_fields _ _ _ _ _ _ _ _ _ rfl rfl (show (0x05 : Byte) &&& 0xFF = 0x05 by decide) BitVec.and_zero (by simp [encodeB]) (by decide) rfl

theorem displayFixed (scaled : Int) (decimals segments : Byte) : Statement (.displayFixed scaled decimals segments) :=
  statement_of_fields _ _ _ _ _ _ _ _ _ rfl rfl (show (0x06 : Byte) &&& 0xFF = 0x06 by decide) BitVec.and_zero BitVec.and_zero (by decide) rfl

theorem setDecodeMode (byte : Byte) : Statement (.setDecodeMode byte) :=
  statement_of_fields _ _ _ _ _ _ _ _ _ rfl rfl (show (0x10 : Byte) &&& 0xFF = 0x10 by decide) (by simp [encodeA]) BitVec.and_zero (by decide) rfl

theorem setIntensity (byte : Byte) : Statement (.setIntensity byte) :=
  statement_of_fields _ _ _ _ _ _ _ _ _ rfl rfl (show (0x11 : Byte) &&& 0xFF = 0x11 by decide) (by simp [encodeA]) BitVec.and_zero (by decide) rfl

theorem setScanLimit (byte : Byte) : Statement (.setScanLimit byte) :=
  statement_of_fields _ _ _ _ _ _ _ _ _ rfl rfl (show (0x12 : Byte) &&& 0xFF = 0x12 by decide) (by simp [encodeA]) BitVec.and_zero (by decide) rfl

theorem setPower (on : Bool) : Statement (.setPower on) :=
  statement_of_fields _ _ _ _ _ _ _ _ _ rfl rfl (show (0x13 : Byte) &&& 0xFF = 0x13 by decide) (by simp [encodeA]) (by cases on <;> decide) (by decide) rfl

theorem setDisplayTest (on : Bool) : Statement (.setDisplayTest on) :=
  statement_of_fields _ _ _ _ _ _ _ _ _ rfl rfl (show (0x14 : Byte) &&& 0xFF = 0x14 by decide) (by simp [encodeA]) (by cases on <;> decide) (by decide) rfl

theorem clear : Statement .clear :=
  statement_of_fields _ _ _ _ _ _ _ _ _ rfl rfl (show (0x18 : Byte) &&& 0xFF = 0x18 by decide) (by simp [encodeA]) (by simp [encodeB]) (by decide) rfl

theorem init (mode : InitMode) : Statement (.init mode) :=
  statement_of_fields _ _ _ _ _ _ _ _ _ rfl rfl (show (0x19 : Byte) &&& 0xFF = 0x19 by decide) BitVec.and_zero (by simp [encodeB]) (by decide) rfl

end Sys2Proof.Laws.TableRow
end

