-- ==== Sys2Proof/Tests/Slice0.lean ====
section
/-! SUPPORT. Tests with expected results from spec/95_test_vectors.md and the encodings of spec/30_encoding.md, and for every
statement with hypotheses a state and operands that meet them. -/

open Sys2Proof Sys2Proof.Machine

namespace Sys2Proof.Tests

/-- The state after reset with these words as the host's next command. -/
def given (ws : List Word) : State := placeCommand ws State.reset

/-- What one step over these words shows: the frame trace, STATUS and `WP`. -/
def observed (ws : List Word) : Option (List Frame × BitVec 16 × Nat) :=
  match step (given ws) with
  | .next t => some (t.trace, t.status, t.wp)
  | .fault _ => none
  | .refused _ => none

/-! ## WellFormed refuses what has no encoding (R64) -/

theorem test_wellFormed_int_above : (Instr.displayBcdInt 2147483648 8).wellFormed = false := by decide
theorem test_wellFormed_int_below : (Instr.displayBcdInt (-2147483649) 8).wellFormed = false := by decide
theorem test_wellFormed_fixed_above : (Instr.displayFixed 2147483648 1 8).wellFormed = false := by decide
theorem test_wellFormed_int_lowest : (Instr.displayBcdInt (-2147483648) 8).wellFormed = true := by decide

/-! ## Decoding: words written out from R61, R63, R64 and R69 -/

theorem test_decode_displayByte : decode [0x0102AB00] = .command (.displayByte 0x02 0xAB) := by decide
theorem test_decode_displayVector :
    decode [0x02060300] = .command (.displayVector 6 ⟨true, true, false, false, false, false, false, false⟩) := by decide
/-- RAW-9's rows: row `r` has only column `r` set. -/
theorem test_decode_displayMatrix : decode [0x03000000, 0x08040201, 0x80402010] = .command (.displayMatrix
    { m0 := ⟨true, false, false, false, false, false, false, false⟩
      m1 := ⟨false, true, false, false, false, false, false, false⟩
      m2 := ⟨false, false, true, false, false, false, false, false⟩
      m3 := ⟨false, false, false, true, false, false, false, false⟩
      m4 := ⟨false, false, false, false, true, false, false, false⟩
      m5 := ⟨false, false, false, false, false, true, false, false⟩
      m6 := ⟨false, false, false, false, false, false, true, false⟩
      m7 := ⟨false, false, false, false, false, false, false, true⟩ }) := by decide
theorem test_decode_displayBcdDigit : decode [0x04030A00] = .command (.displayBcdDigit 3 0x0A) := by decide
theorem test_decode_displayBcdInt : decode [0x05080000, 0x80000000] = .command (.displayBcdInt (-2147483648) 8) := by decide
theorem test_decode_displayFixed : decode [0x06050200, 0xFFFFFF83] = .command (.displayFixed (-125) 2 5) := by decide
theorem test_decode_setDecodeMode : decode [0x10000F00] = .command (.setDecodeMode 0x0F) := by decide
theorem test_decode_setIntensity : decode [0x1100FF00] = .command (.setIntensity 0xFF) := by decide
theorem test_decode_setScanLimit : decode [0x12000700] = .command (.setScanLimit 0x07) := by decide
theorem test_decode_setPower : decode [0x13000100] = .command (.setPower true) := by decide
theorem test_decode_setDisplayTest : decode [0x14000000] = .command (.setDisplayTest false) := by decide
theorem test_decode_clear : decode [0x18000000] = .command .clear := by decide
theorem test_decode_init : decode [0x19010000] = .command (.init .raw) := by decide

/-- E-1, E-2, E-3: unassigned codes, one word long. -/
theorem test_decode_unassigned : decode [0x00000000] = .illegal .unassignedOpcode 1 ∧
    decode [0xFF000000] = .illegal .unassignedOpcode 1 ∧ decode [0x07000000, 0] = .illegal .unassignedOpcode 1 := by decide
/-- E-4, E-5, E-13: R not 0, before any range check, with the length of the opcode. -/
theorem test_decode_reserved : decode [0x0100FF01] = .illegal .reservedNotZero 1 ∧
    decode [0x05040001, 5] = .illegal .reservedNotZero 2 ∧ decode [0x01090501] = .illegal .reservedNotZero 1 := by decide
/-- E-6 to E-11. -/
theorem test_decode_constraints : decode [0x05040100, 5] = .illegal .operandConstraint 2 ∧
    decode [0x03000100, 0, 0] = .illegal .operandConstraint 3 ∧ decode [0x10010000] = .illegal .operandConstraint 1 ∧
    decode [0x13000200] = .illegal .operandConstraint 1 ∧ decode [0x19030000] = .illegal .operandConstraint 1 ∧
    decode [0x18000100] = .illegal .operandConstraint 1 := by decide
/-- E-12: the payload word is missing. -/
theorem test_decode_incomplete : decode [0x05040000] = .incomplete 2 := by decide

/-- The host's reading of a table word: operand words of zeros. -/
theorem test_decodeTableWord : decodeTableWord 32 0x05040000 = some (.displayBcdInt 0 4) ∧
    decodeTableWord 32 0x03000000 = some (.displayMatrix (unpackMatrix 0 0)) ∧ decodeTableWord 32 0x1A000000 = none := by decide

/-! ## One step of each command -/

/-- RAW-2, RAW-3. -/
theorem test_displayByte_top_row : observed [0x0107FF00] = some ([⟨0x8, 0xFF⟩], 0x0000, 1) := by decide
theorem test_displayByte_row_8 : observed [0x01080000] = some ([], 0x0001, 1) := by decide
/-- RAW-5, RAW-7. -/
theorem test_displayVector_last_bit : observed [0x02008000] = some ([⟨0x1, 0x80⟩], 0x0000, 1) := by decide
theorem test_displayVector_row_8 : observed [0x0208FF00] = some ([], 0x0001, 1) := by decide
/-- RAW-9. -/
theorem test_displayMatrix_diagonal : observed [0x03000000, 0x08040201, 0x80402010] =
    some ([⟨1, 0x01⟩, ⟨2, 0x02⟩, ⟨3, 0x04⟩, ⟨4, 0x08⟩, ⟨5, 0x10⟩, ⟨6, 0x20⟩, ⟨7, 0x40⟩, ⟨8, 0x80⟩], 0x0000, 3) := by decide
/-- BD-2, BD-4. -/
theorem test_displayBcdDigit_blank : observed [0x04070F00] = some ([⟨0x8, 0x0F⟩], 0x0000, 1) := by decide
theorem test_displayBcdDigit_16 : observed [0x04031000] = some ([], 0x0001, 1) := by decide
/-- L1-6, BI-10. -/
theorem test_displayBcdInt_minus_20 : observed [0x05040000, 0xFFFFFFEC] =
    some ([⟨1, 0x00⟩, ⟨2, 0x02⟩, ⟨3, 0x00⟩, ⟨4, 0x00⟩, ⟨1, 0x0A⟩], 0x0000, 2) := by decide
theorem test_displayBcdInt_lowest : observed [0x05080000, 0x80000000] =
    some ([⟨1, 8⟩, ⟨2, 4⟩, ⟨3, 6⟩, ⟨4, 3⟩, ⟨5, 8⟩, ⟨6, 4⟩, ⟨7, 7⟩, ⟨8, 4⟩, ⟨1, 0x0A⟩], 0x0000, 2) := by decide
/-- F-1, F-8. -/
theorem test_displayFixed_no_whole_digit : observed [0x06020100, 0xFFFFFFFB] = some ([⟨1, 5⟩, ⟨2, 0x0A⟩], 0x0000, 2) := by decide
theorem test_displayFixed_lower_bound : observed [0x06040100, 0xFFFFFC18] = some ([], 0x0003, 2) := by decide
/-- C-1, C-3, C-4. -/
theorem test_setDecodeMode : observed [0x10000F00] = some ([⟨0x9, 0x0F⟩], 0x0000, 1) := by decide
theorem test_setIntensity : observed [0x1100FF00] = some ([⟨0xA, 0xFF⟩], 0x0000, 1) := by decide
theorem test_setScanLimit : observed [0x12000700] = some ([⟨0xB, 0x07⟩], 0x0000, 1) := by decide
/-- C-5, C-6, C-7, C-8. -/
theorem test_setPower_on : observed [0x13000100] = some ([⟨0xC, 0xFF⟩], 0x0000, 1) := by decide
theorem test_setPower_off : observed [0x13000000] = some ([⟨0xC, 0x00⟩], 0x0000, 1) := by decide
theorem test_setDisplayTest_on : observed [0x14000100] = some ([⟨0xF, 0xFF⟩], 0x0000, 1) := by decide
theorem test_setDisplayTest_off : observed [0x14000000] = some ([⟨0xF, 0x00⟩], 0x0000, 1) := by decide
/-- C-9. -/
theorem test_clear : observed [0x18000000] =
    some ([⟨1, 0⟩, ⟨2, 0⟩, ⟨3, 0⟩, ⟨4, 0⟩, ⟨5, 0⟩, ⟨6, 0⟩, ⟨7, 0⟩, ⟨8, 0⟩], 0x0000, 1) := by decide
/-- C-10, C-12. -/
theorem test_init_none : observed [0x19000000] = some ([], 0x0000, 1) := by decide
theorem test_init_bcd : observed [0x19020000] =
    some ([⟨0xB, 4⟩, ⟨0xA, 0x0F⟩, ⟨0xC, 0xFF⟩, ⟨1, 0⟩, ⟨2, 0⟩, ⟨3, 0⟩, ⟨4, 0⟩, ⟨5, 0⟩, ⟨6, 0⟩, ⟨7, 0⟩, ⟨8, 0⟩, ⟨9, 0x0F⟩],
      0x0000, 1) := by decide
/-- E-7: three words consumed. -/
theorem test_illegal_consumes_payload : observed [0x03000100, 0, 0] = some ([], 0x0004, 3) := by decide

/-- BM-2, the alternative order. -/
theorem test_msd_minus_20 : (planDisplayBcdInt { Config.params with bcdIntOrder := .msdAt0 } (-20) 4).frames =
    [⟨4, 0⟩, ⟨3, 2⟩, ⟨2, 0⟩, ⟨1, 0⟩, ⟨1, 0x0A⟩] := by decide

/-- A symbol as the value of `display_fixed` (log entry 15): BLANK is 0x0F, so 15.0. -/
theorem test_assemble_fixed_symbol : (assemble .displayFixed [.symbol .blank, .number 1, .number 4]).map encode =
    some [0x06040100, 0x00000096] := by decide

/-- R69's example: `display_fixed -1.25, 2, 5`. -/
theorem test_assemble_fixed : (assemble .displayFixed [.decimal (-125) 100, .number 2, .number 5]).map encode =
    some [0x06050200, 0xFFFFFF83] := by decide

/-! ## What the host and the channel do (R152, R159) -/

/-- A step of `init RAW` cut after three of its frames: what stands in the trace, STATUS, and whether the block is IDLE. -/
def cut (e : EnvEvent) : Option (List Frame × BitVec 16 × Bool) :=
  match exec (.init .raw) { State.reset with status := 0x0003, env := [e] } with
  | .next t => some (t.trace, t.status, decide (t.seq = .idle))
  | .fault _ => none
  | .refused _ => none

theorem test_reset_mid_command : cut (.reset 3 .afterLastCommand) =
    some ([⟨0xB, 4⟩, ⟨0xA, 0x0F⟩, ⟨0xC, 0xFF⟩], 0x0000, true) := by decide
theorem test_stall_mid_command : cut (.stall 3) = some ([⟨0xB, 4⟩, ⟨0xA, 0x0F⟩, ⟨0xC, 0xFF⟩], 0x0003, false) := by decide

/-- One step over a header whose payload the host has not given, and what the host can read then (R158). -/
theorem test_incomplete_waits : (match step { given [0x05040000] with status := 0x0003 } with
    | .next t => some (t.seq, t.wp, t.trace, readStatus t)
    | .fault _ => none
    | .refused _ => none) = some (.waiting, 0, [], none) := by decide

/-- Payload that comes one step late, and the step after it (R158, L1-6's words). -/
theorem test_late_payload : (match step { given [0x05040000, 0xFFFFFFEC] with env := [.late] } with
    | .next t => some (t.seq, observed t.stream)
    | .fault _ => none
    | .refused _ => none) =
    some (.waiting, some ([⟨1, 0x00⟩, ⟨2, 0x02⟩, ⟨3, 0x00⟩, ⟨4, 0x00⟩, ⟨1, 0x0A⟩], 0x0000, 2)) := by decide

/-! ## Witnesses: states and operands that meet the hypotheses of the statements -/

theorem undisturbed_given (ws : List Word) : Undisturbed (given ws) := ⟨rfl, rfl⟩

theorem test_witness_IdleBlockCanAlwaysBeReset : (∃ s : State, s.seq = .idle ∧ nextEvent s = .reset 0 .fromStart ∧
    fetch s = .incomplete 2) ∧ ∃ s : State, s.seq = .waiting ∧ nextEvent s = .reset 0 .afterLastCommand :=
  ⟨⟨{ given [0x05040000] with env := [.reset 0 .fromStart] }, rfl, rfl, by decide⟩,
    ⟨{ given [0x05040000] with seq := .waiting, env := [.reset 0 .afterLastCommand] }, rfl, rfl⟩⟩

theorem test_witness_DisplayByteResult :
    Undisturbed (given [0x0107FF00]) ∧ (7#8).toNat ≤ 7 ∧ 7 < (8#8).toNat ∧ 7 < (255#8).toNat :=
  ⟨undisturbed_given _, by decide, by decide, by decide⟩

theorem test_witness_DisplayVectorResult : Undisturbed (given [0x02008000]) ∧ (0#8).toNat ≤ 7 ∧ 7 < (8#8).toNat :=
  ⟨undisturbed_given _, by decide, by decide⟩

theorem test_witness_DisplayMatrixResult : Undisturbed (given [0x03000000, 0x08040201, 0x80402010]) := undisturbed_given _

theorem test_witness_DisplayBcdDigitResult : Undisturbed (given [0x04070F00]) ∧
    ((7#8).toNat ≤ 7 ∧ (15#8).toNat ≤ 15) ∧ (7 < (8#8).toNat ∨ 15 < (5#8).toNat) ∧ (7 < (3#8).toNat ∨ 15 < (16#8).toNat) :=
  ⟨undisturbed_given _, by decide, by decide, by decide⟩

theorem test_witness_DisplayBcdIntResult : Undisturbed (given [0x05080000, 0x80000000]) ∧
    (1 ≤ (1#8).toNat ∧ (1#8).toNat ≤ 8) ∧ (1 ≤ (8#8).toNat ∧ (8#8).toNat ≤ 8) ∧
    ((0#8).toNat < 1 ∨ 8 < (0#8).toNat) ∧ ((9#8).toNat < 1 ∨ 8 < (9#8).toNat) :=
  ⟨undisturbed_given _, by decide, by decide, by decide, by decide⟩

theorem test_witness_BcdIntTruncatesSilently : Undisturbed (given [0x05010000, 0xA]) ∧ 1 ≤ (1#8).toNat ∧ (8#8).toNat ≤ 8 ∧
    (10 : Int).natAbs ≥ 10 ^ (1#8).toNat := ⟨undisturbed_given _, by decide, by decide, by decide⟩

/-- F-12 (operands), F-9 and F-10 (non-negative, just inside and outside), F-7 and F-8 (negative, just inside and outside). -/
theorem test_witness_DisplayFixedResult : Undisturbed (given [0x06040100, 0x0000270F]) ∧
    ¬ (1 ≤ (2#8).toNat ∧ 2 ≤ (2#8).toNat ∧ (2#8).toNat < (2#8).toNat ∧ (2#8).toNat ≤ 8) ∧
    (1 ≤ (1#8).toNat ∧ 2 ≤ (4#8).toNat ∧ (1#8).toNat < (4#8).toNat ∧ (4#8).toNat ≤ 8) ∧
    ((0 ≤ (9999 : Int)) ∧ (9999 : Int).natAbs < 10 ^ (4#8).toNat) ∧ ((0 ≤ (10000 : Int)) ∧ ¬ (10000 : Int).natAbs < 10 ^ (4#8).toNat) ∧
    (¬ (0 ≤ (-999 : Int)) ∧ (-999 : Int).natAbs < 10 ^ ((4#8).toNat - 1)) ∧
    (¬ (0 ≤ (-1000 : Int)) ∧ ¬ (-1000 : Int).natAbs < 10 ^ ((4#8).toNat - 1)) :=
  ⟨undisturbed_given _, by decide, by decide, by decide, by decide, by decide, by decide⟩

theorem test_witness_SettingsPassTheirByteThrough : Undisturbed (given [0x1100FF00]) := undisturbed_given _

theorem test_witness_SwitchesWriteAllOnesOrZeros : Undisturbed (given [0x13000100]) ∧ 1 < (2#8).toNat :=
  ⟨undisturbed_given _, by decide⟩

theorem test_witness_ClearZeroesTheEightDigits : Undisturbed (given [0x18000000]) := undisturbed_given _

theorem test_witness_InitWritesItsSequence : Undisturbed (given [0x19020000]) ∧ 2 < (3#8).toNat :=
  ⟨undisturbed_given _, by decide⟩

theorem test_witness_LengthFromOpcodeAlone : headerOpc 0x03000000 = 0x03 ∧ headerOpc 0x05040000 = 0x05 ∧
    headerOpc 0x06020100 = 0x06 ∧ headerOpc 0x04000000 ≠ 0x05 ∧ ([] : List Word).length < 2 - 1 ∧ 2 - 1 ≤ [0#32].length := by decide

/-- One ILLEGAL header per item of R66, and a command. -/
theorem test_witness_IllegalHeadersAreExactlyThese :
    (given [0x05040100, 5]).stream.drop (given [0x05040100, 5]).wp = [0x05040100, 5] ∧
    lengthOfOpc (headerOpc 0x05040100) ≤ [5#32].length + 1 ∧
    (headerOpc 0x05040100).toNat = 0x05 ∧ (headerB 0x05040100).toNat ≠ 0 ∧ (headerOpc 0x1A000000).toNat = 0x1A ∧
    headerR 0x0100FF01 ≠ 0x00 ∧ (headerOpc 0x19030000).toNat = 0x19 ∧ 2 < (headerA 0x19030000).toNat ∧
    Undisturbed (given [0x05040100, 5]) :=
  ⟨by decide, by decide, by decide, by decide, by decide, by decide, by decide, by decide, undisturbed_given _⟩

theorem test_witness_DecodeOfEncodeIsTheCommand : (Instr.displayBcdInt (-2147483648) 8).wellFormed = true := by decide

theorem test_witness_EncodeOfDecodeIsTheWords : decode [0x06050200, 0xFFFFFF83, 0] = .command (.displayFixed (-125) 2 5) := by decide

theorem test_witness_AssemblerTable : fitsInt32 (-2147483648) = true ∧ fitsInt32 (-125) = true ∧ (100 : Nat) ≠ 0 ∧
    (-125 : Int) * 10 ^ (2#8).toNat = (-125) * (100 : Nat) ∧ fitsInt32 (asmSymbolValue .minus * 10 ^ (1#8).toNat) = true := by
  decide

theorem test_witness_StepRunsTheDecodedCommand :
    decode ((given [0x05040000, 5]).stream.drop (given [0x05040000, 5]).wp) = .command (.displayBcdInt 5 4) ∧
    (given [0x05040000, 5]).seq = .idle ∧ ({ given [0x05040000, 5] with seq := .waiting } : State).seq = .waiting := by decide

theorem test_witness_PlacedWordIsTheNextCommand : decodeTableWord 32 0x06020100 = some (.displayFixed 0 1 2) := by decide

/-- A step that completes, for the statements over undisturbed steps. -/
theorem test_witness_undisturbed_step : ∃ t, Undisturbed (given [0x18000000]) ∧ step (given [0x18000000]) = .next t :=
  ⟨_, undisturbed_given _, rfl⟩

theorem test_witness_WordPointerMovesByTheCommandLength : (∃ t, Undisturbed (given [0x05040000, 5]) ∧
    step (given [0x05040000, 5]) = .next t) ∧ ∃ t, Undisturbed (given [0x05040000]) ∧ step (given [0x05040000]) = .next t :=
  ⟨⟨_, undisturbed_given _, rfl⟩, ⟨_, undisturbed_given _, rfl⟩⟩

theorem test_witness_NoStepChangesTheStream : ∃ t, step (given [0x03000100, 0, 0]) = .next t := ⟨_, rfl⟩

theorem test_witness_IncompleteIsStuckAndExhaustedEnds :
    let s : State := { given [0x03000000, 1] with seq := .waiting }
    (Undisturbed State.reset ∧ State.reset.stream.length ≤ State.reset.wp) ∧
    (s.seq = .waiting ∧ (∀ m r, nextEvent s ≠ .reset m r) ∧ s.stream.drop s.wp = 0x03000000 :: [1] ∧
      [1#32].length + 1 < lengthOfOpc (headerOpc 0x03000000)) ∧
    (given [0x05040000, 1]).seq = .idle ∧ lengthOfOpc (headerOpc 0x05040000) ≤ [1#32].length + 1 :=
  ⟨⟨⟨rfl, rfl⟩, by decide⟩, ⟨rfl, fun _ _ h => (by cases h), by decide, by decide⟩, by decide, by decide⟩

/-- The payload missing at the stream's end, and a payload that comes late, from IDLE and from BUSY-waiting. -/
theorem test_witness_PayloadIsAwaitedBusy :
    let s : State := given [0x03000000, 1]
    let l : State := { given [0x05040000, 5] with env := [.late] }
    let w : State := { given [0x05040000, 5] with seq := .waiting }
    (s.stream.drop s.wp = 0x03000000 :: [1] ∧ 1 < lengthOfOpc (headerOpc 0x03000000) ∧ s.seq = .idle ∧
      [1#32].length + 1 < lengthOfOpc (headerOpc 0x03000000) ∧ (∀ m r, nextEvent s ≠ .reset m r)) ∧
    (l.stream.drop l.wp = 0x05040000 :: [5] ∧ 1 < lengthOfOpc (headerOpc 0x05040000) ∧ l.seq = .idle ∧
      lengthOfOpc (headerOpc 0x05040000) ≤ [5#32].length + 1 ∧ nextEvent l = .late) ∧
    (w.seq = .waiting ∧ w.stream.drop w.wp = 0x05040000 :: [5]) :=
  ⟨⟨by decide, by decide, rfl, by decide, fun _ _ h => (by cases h)⟩, ⟨by decide, by decide, rfl, by decide, rfl⟩,
    rfl, by decide⟩

theorem test_witness_CommandsAreAcceptedOnlyInIdle : ({ State.reset with seq := .busy .clear 3 } : State).seq ≠ .idle ∧
    ({ State.reset with seq := .waiting } : State).seq ≠ .idle ∧ State.reset.seq = .idle := by decide

theorem test_witness_StepsOnlyAppendFrames :
    ∃ t, step { given [0x18000000] with env := [.reset 3 .afterLastCommand] } = .next t := ⟨_, rfl⟩

theorem test_witness_FramesGoToTheCommandsOwnAddresses : (∃ t, exec (.setDisplayTest true) State.reset = .next t) ∧
    (∃ t, exec (.init .bcd) State.reset = .next t) ∧ ∃ t, step (given [0x14000100]) = .next t := ⟨⟨_, rfl⟩, ⟨_, rfl⟩, ⟨_, rfl⟩⟩

theorem test_witness_BcdCommandsWriteBcdSymbols : ∃ t, exec (.displayFixed (-5) 1 2) State.reset = .next t := ⟨_, rfl⟩

theorem test_witness_ErrorsEmitNoFrame : ∃ t, Undisturbed (given [0x01080000]) ∧ step (given [0x01080000]) = .next t ∧
    t.status ≠ 0x0000 := ⟨_, undisturbed_given _, rfl, by decide⟩

/-- Both sides of R131's conditions, at their boundary: a row of 7 and of 8. -/
theorem test_witness_OutOfRangeExactly : (∃ t, Undisturbed State.reset ∧ exec (.displayByte 7 0) State.reset = .next t ∧
    t.status = 0x0000) ∧ ∃ t, exec (.displayByte 8 0) State.reset = .next t ∧ t.status = 0x0001 :=
  ⟨⟨_, ⟨rfl, rfl⟩, rfl, by decide⟩, ⟨_, rfl, by decide⟩⟩

/-- Both sides of R132's condition, at its boundary: 9.9 and 10.0 with two segments. -/
theorem test_witness_OverflowExactly : (∃ t, Undisturbed State.reset ∧ exec (.displayFixed 99 1 2) State.reset = .next t ∧
    t.status = 0x0000) ∧ ∃ t, exec (.displayFixed 100 1 2) State.reset = .next t ∧ t.status = 0x0003 :=
  ⟨⟨_, ⟨rfl, rfl⟩, rfl, by decide⟩, ⟨_, rfl, by decide⟩⟩

theorem test_witness_StatusIsOneOfFourValues : ∃ t, Undisturbed (given [0x06020100, 0x64]) ∧
    step (given [0x06020100, 0x64]) = .next t ∧ t.seq = .idle ∧ t.status = 0x0003 :=
  ⟨_, undisturbed_given _, rfl, rfl, by decide⟩

theorem test_witness_CommandsAreIdempotentOnTheDevice : ∃ t u, Undisturbed State.reset ∧ Undisturbed t ∧
    exec (.displayBcdInt (-20) 4) State.reset = .next t ∧ exec (.displayBcdInt (-20) 4) t = .next u :=
  ⟨_, _, ⟨rfl, rfl⟩, ⟨rfl, rfl⟩, rfl, rfl⟩

theorem test_witness_FrameCountsPerCommand : ∃ t, Undisturbed State.reset ∧ exec (.init .raw) State.reset = .next t ∧
    t.status = 0x0000 := ⟨_, ⟨rfl, rfl⟩, rfl, by decide⟩

/-- R95's corner: -21 in four segments does not read back, -20 does. -/
theorem test_witness_BcdIntRoundTrip : Undisturbed State.reset ∧ 1 ≤ (4#8).toNat ∧ (4#8).toNat ≤ 8 ∧
    (-21 : Int) < 0 ∧ (-21 : Int).natAbs % 10 ≠ 0 ∧ (-20 : Int).natAbs % 10 = 0 ∧ (0 : Int) ≤ 21 :=
  ⟨⟨rfl, rfl⟩, by decide, by decide, by decide, by decide, by decide, by decide⟩

theorem test_witness_MsdOrderFramesAndRoundTrip : 1 ≤ (4#8).toNat ∧ (4#8).toNat ≤ 8 ∧ (-20 : Int) < 0 ∧ (0 : Int) ≤ 245 := by decide

/-- The frames of `init RAW` (C-11). -/
def initRawFrames : List Frame :=
  [⟨0xB, 4⟩, ⟨0xA, 0x0F⟩, ⟨0xC, 0xFF⟩, ⟨1, 0⟩, ⟨2, 0⟩, ⟨3, 0⟩, ⟨4, 0⟩, ⟨5, 0⟩, ⟨6, 0⟩, ⟨7, 0⟩, ⟨8, 0⟩]

theorem init_raw_completes (s : State) (hs : { s with seq := .idle } = State.reset) :
    Completes (.init .raw) 1 initRawFrames 0x0000 { s with seq := .idle, env := [] } := by
  rw [show ({ s with seq := .idle, env := [] } : State) = { ({ s with seq := .idle } : State) with env := [] } from rfl, hs]
  exact ⟨_, rfl, ⟨by decide, by decide, by decide, by decide, by decide, by decide, by decide⟩⟩

theorem test_witness_ResetAbandonsAfterAnyFrame :
    let s : State := { State.reset with seq := .busy (.init .raw) 3 }
    (State.reset.seq = .idle ∧ Completes (.init .raw) 1 initRawFrames 0x0000 { State.reset with seq := .idle, env := [] }) ∧
    s.seq = .busy (.init .raw) 3 ∧ Completes (.init .raw) 1 initRawFrames 0x0000 { s with seq := .idle, env := [] } :=
  ⟨⟨rfl, init_raw_completes _ rfl⟩, rfl, init_raw_completes { State.reset with seq := .busy (.init .raw) 3 } rfl⟩

theorem test_witness_StalledTransferBlocksForever :
    let s : State := { State.reset with seq := .busy (.init .raw) 3 }
    (State.reset.seq = .idle ∧ Completes (.init .raw) 1 initRawFrames 0x0000 { State.reset with seq := .idle, env := [] } ∧
      10 < initRawFrames.length) ∧
    s.seq = .busy (.init .raw) 3 ∧ Completes (.init .raw) 1 initRawFrames 0x0000 { s with seq := .idle, env := [] } ∧
      3 + 0 < initRawFrames.length ∧ 3 + 7 < initRawFrames.length :=
  ⟨⟨rfl, init_raw_completes _ rfl, by decide⟩, rfl,
    init_raw_completes { State.reset with seq := .busy (.init .raw) 3 } rfl, by decide, by decide⟩

theorem test_witness_UndisturbedStepUsesOneEvent :
    let s : State := { given [0x18000000] with env := [.quiet, .hold 3] }
    Undisturbed s ∧ ∃ t, step s = .next t := ⟨⟨rfl, rfl⟩, _, rfl⟩

/-- The command words of a `clear` and an interrupted step over them, on a state that has the invariant. -/
theorem test_witness_EveryStepKeepsTheInvariant :
    let s : State := { given [0x18000000] with env := [.hold 3] }
    Inv s ∧ ∃ t, step s = .next t ∧ t.seq = .busy .clear 3 :=
  ⟨⟨by decide, .inl rfl, trivial, by decide, fun _ => rfl, fun _ hf => absurd hf List.not_mem_nil, by decide⟩, _, rfl, by decide⟩

/-- The same from BUSY-waiting. -/
theorem test_witness_invariant_waiting :
    let s : State := { given [0x05040000, 5] with seq := .waiting }
    Inv s ∧ ∃ t, step s = .next t :=
  ⟨⟨by decide, .inl rfl, ⟨_, _, rfl, by decide⟩, by decide, fun _ => rfl, fun _ hf => absurd hf List.not_mem_nil, by decide⟩,
    _, rfl⟩

theorem test_witness_HeldCommandReachesTheSameState :
    let s : State := given [0x05040000, 5]
    ∃ t, s.seq = .idle ∧ fetch s = .command (.displayBcdInt 5 4) ∧
      (∀ e ∈ ([.late, .hold 2, .late] : List EnvEvent), e = .late ∨ ∃ m, e = .hold m) ∧ step { s with env := [] } = .next t :=
  ⟨_, rfl, by decide, by simp, rfl⟩

/-- A stream of complete commands with an ILLEGAL one among them. -/
theorem test_witness_RunsOverCompleteCommandsEnd :
    let s : State := { State.reset with stream := [0x18000000, 0x05040001, 5, 0x03000000, 0, 0] }
    s.seq = .idle ∧ s.env = [] ∧ s.wp ≤ s.stream.length ∧ CompleteCommands (s.stream.drop s.wp) :=
  ⟨rfl, rfl, by decide, by unfold CompleteCommands; decide⟩

end Sys2Proof.Tests
end

section
/-! SUPPORT. What stands at `WP` when the block answers it, and how `decode` reads words that others follow (R21, R67,
R68). -/

namespace Sys2Proof.Machine

/-! ## Decoding with words behind the command -/

/-- Complete words of an assigned opcode that meet R62 and R65 decode to their command. -/
theorem decode_of_buildInstr {h : Word} {payload : List Word} {i : Instr} {o : Opcode}
    (hlen : lengthOfOpc (headerOpc h) ≤ payload.length + 1) (ho : opcodeOf (headerOpc h) = some o)
    (hr : headerR h = 0#8) (hb : buildInstr o (headerA h) (headerB h) payload = some i) :
    decode (h :: payload) = .command i := by
  simp [decode, Nat.not_lt.2 hlen, decodeComplete, ho, hr, hb]

/-- The operands depend on the payload words of the command's own length only (R64, R68). -/
theorem buildInstr_append {o : Opcode} {a b : Byte} {payload : List Word}
    (hlen : lengthOfOpc (opcodeCode o) ≤ payload.length + 1) (later : List Word) :
    buildInstr o a b (payload ++ later) = buildInstr o a b payload := by
  cases o
  case displayMatrix =>
    have h2 : 2 ≤ payload.length := Nat.le_of_succ_le_succ hlen
    simp only [buildInstr, List.getD_append payload later 0 _ (show 0 < payload.length by omega),
      List.getD_append payload later 0 _ (show 1 < payload.length by omega)]
  case displayBcdInt | displayFixed =>
    have h1 : 0 < payload.length := Nat.le_of_succ_le_succ hlen
    simp only [buildInstr, List.getD_append payload later 0 _ h1]
  all_goals rfl

/-- A command is read from its own words: what follows them in the stream does not matter (R67, R68). -/
theorem decode_append {ws : List Word} {i : Instr} (hd : decode ws = .command i) (later : List Word) :
    decode (ws ++ later) = .command i := by
  cases ws with
  | nil => cases hd
  | cons h payload =>
    obtain ⟨ho, hr, hb, hl, hle⟩ := decode_command hd
    have hlen : lengthOfOpc (headerOpc h) ≤ (payload ++ later).length + 1 := by
      rw [← hl, List.length_append]
      omega
    exact decode_of_buildInstr hlen ho hr ((buildInstr_append hle later).trans hb)

/-- Words placed at an index are what is read from that index on. -/
theorem drop_placeWords (old : List Word) (at_ : Nat) (new : List Word) :
    (placeWords old at_ new).drop at_ = new ++ old.drop (at_ + new.length) := by
  rw [placeWords, List.append_assoc]
  exact List.drop_left' (by simp)

/-- The words of a table word that decodes, placed at `WP`, are the command on offer. -/
theorem fetch_withFetchWord {w : Nat} {i : Instr} (h : decodeTableWord 32 w = some i) (s : State) :
    fetch (s.withFetchWord 32 w) = .command i := by
  have hd : decode (tableWords 32 w) = .command i := by
    unfold decodeTableWord at h
    split at h
    · next j hj => injection h with h; exact h ▸ hj
    all_goals cases h
  have hdrop : (s.withFetchWord 32 w).stream.drop (s.withFetchWord 32 w).wp
      = tableWords 32 w ++ s.stream.drop (s.wp + (tableWords 32 w).length) := drop_placeWords ..
  rw [fetch, hdrop]
  exact decode_append hd _

/-! ## What stands at `WP` -/

/-- The words from `W[WP]` on start with a header whose command has all its `len` words there. -/
def CompleteAt (len : Nat) (s : State) : Prop :=
  ∃ h later, s.stream.drop s.wp = h :: later ∧ lengthOfOpc (headerOpc h) = len ∧ len ≤ later.length + 1

/-- A complete command at `WP` ends within the stream (R21, R68). -/
theorem CompleteAt.wp_le {len : Nat} {s : State} (h : CompleteAt len s) : s.wp + len ≤ s.stream.length := by
  obtain ⟨hdr, later, hdrop, -, hle⟩ := h
  have := congrArg List.length hdrop
  simp only [List.length_drop, List.length_cons] at this
  omega

theorem completeAt_of_command {s : State} {i : Instr} (hf : fetch s = .command i) : CompleteAt (commandLength i) s := by
  unfold fetch at hf
  cases hdrop : s.stream.drop s.wp with
  | nil => rw [hdrop] at hf; cases hf
  | cons h later =>
    rw [hdrop] at hf
    obtain ⟨-, -, -, hl, hle⟩ := decode_command hf
    exact ⟨h, later, hdrop, hl.symm, hle⟩

theorem completeAt_of_illegal {s : State} {why : IllegalReason} {len : Nat} (hf : fetch s = .illegal why len) :
    CompleteAt len s := by
  unfold fetch at hf
  cases hdrop : s.stream.drop s.wp with
  | nil => rw [hdrop] at hf; cases hf
  | cons h later =>
    rw [hdrop] at hf
    obtain ⟨rfl, hle⟩ := decode_illegal hf
    exact ⟨h, later, hdrop, rfl, hle⟩

/-- A decoded complete header is never `incomplete`: only the missing payload words make it so (R68). -/
theorem decodeComplete_ne_incomplete (h : Word) (payload : List Word) (len : Nat) :
    decodeComplete h payload ≠ .incomplete len := by
  unfold decodeComplete
  split
  · nofun
  · split
    · split <;> nofun
    · nofun

/-- A header with missing payload words at `WP` (R68, R158). -/
theorem short_of_incomplete {s : State} {len : Nat} (hf : fetch s = .incomplete len) :
    ∃ h later, s.stream.drop s.wp = h :: later ∧ later.length + 1 < lengthOfOpc (headerOpc h) := by
  unfold fetch at hf
  cases hdrop : s.stream.drop s.wp with
  | nil => rw [hdrop] at hf; cases hf
  | cons h later =>
    rw [hdrop, decode] at hf
    split at hf
    · next hlt => exact ⟨h, later, rfl, hlt⟩
    · exact absurd hf (decodeComplete_ne_incomplete h later len)

/-- A command whose payload was awaited is run as one taken from IDLE (R68). -/
theorem exec_setIdle (i : Instr) (s : State) :
    exec i { s with seq := .idle } = .next (takeCommand (commandLength i) (Sequencer.busy i) (planOf i) s) := by
  rw [exec_idle i { s with seq := .idle } rfl, takeCommand_setSeq]

/-- A block that takes a command does so from IDLE and from BUSY-waiting alike (R25, R68). -/
theorem step_of_command {s : State} {i : Instr} (hs : s.seq = .idle ∨ s.seq = .waiting) (hf : fetch s = .command i) :
    step s = .next (takeCommand (commandLength i) (Sequencer.busy i) (planOf i) s) := by
  rcases hs with hs | hs
  · simp only [step, hs, hf, exec_idle i s hs]
  · simp only [step, hs, resumeWaiting, hf, exec_setIdle]

end Sys2Proof.Machine
end

section
/-! PROOFS. The state's basic statements: reset, acceptance, and the command at `WP` as the step. -/

namespace Sys2Proof.Machine

/-- Settles O1: R32's values are the fields of `State.reset`, and a block reset writes neither `WP` nor `D`. -/
theorem resetLeavesTheListedState : Obligations.ResetLeavesTheListedState :=
  ⟨rfl, rfl, rfl, rfl, fun _ => rfl, fun _ => ⟨rfl, fun _ => rfl⟩⟩

/-- Settles O46: at reset everything is empty, so every clause of the invariant holds of the empty lists. -/
theorem invariantAtReset : Obligations.InvariantAtReset where
  wp := Nat.le_refl 0
  status := .inl rfl
  seq := trivial
  devCanonical := rfl
  dev _ := rfl
  addrs _ hf := absurd hf List.not_mem_nil
  channel := rfl

/-- Settles O28: `accept` splits on the sequencer as `readStatus` does. -/
theorem commandsAreAcceptedOnlyInIdle : Obligations.CommandsAreAcceptedOnlyInIdle := by
  refine ⟨fun s i hs => ?_, fun s i hs => ⟨⟨_, exec_idle i s hs⟩, by simp [readStatus, hs]⟩⟩
  rw [exec_eq_accept]
  cases hq : s.seq with
  | idle => exact absurd hq hs
  | waiting | busy => simp [accept, readStatus, hq]

/-- Settles O23: the branch of `step` for a command on offer. -/
theorem stepRunsTheDecodedCommand : Obligations.StepRunsTheDecodedCommand := by
  intro s i hd
  have hf : fetch s = .command i := hd
  exact ⟨fun hs => by simp only [step, hs, hf], fun hs => by simp only [step, hs, resumeWaiting, hf]⟩

/-- Settles O24: the placed words decode as they do alone, whatever the stream holds behind them. -/
theorem placedWordIsTheNextCommand : Obligations.PlacedWordIsTheNextCommand := by
  intro s w i h
  exact ⟨(stepRunsTheDecodedCommand _ i (fetch_withFetchWord h s)).1 rfl, ⟨rfl, rfl⟩, rfl, rfl⟩

end Sys2Proof.Machine
end

section
/-! SUPPORT. Every plan is legal: its frames go to addresses of the device (R47) and its result is one of the four values
of STATUS (R22, R134). -/

namespace Sys2Proof.Machine

/-- The plan's frames go to legal addresses (R47) and its STATUS is a legal one (R22, R134, R135). -/
structure LegalPlan (p : Plan) : Prop where
  addrs : ∀ f ∈ p.frames, LegalAddr f.addr
  status : LegalStatus (packStatus p.code p.mask)

theorem LegalPlan.emitThenOk {fs : List Frame} (h : ∀ f ∈ fs, LegalAddr f.addr) : LegalPlan (emitThenOk fs) :=
  ⟨h, .inl packStatus_ok⟩

/-- A raised error has no frame, so it is legal when its code is one the block produces. -/
theorem LegalPlan.raiseError {c : ResultCode} (h : LegalStatus (packStatus c 0)) : LegalPlan (raiseError c) :=
  ⟨fun _ hf => absurd hf List.not_mem_nil, h⟩

theorem legalPlan_outOfRange : LegalPlan (raiseError .outOfRange) := .raiseError (.inr (.inl packStatus_outOfRange))

theorem legalPlan_overflow : LegalPlan (raiseError .overflow) := .raiseError (.inr (.inr (.inl packStatus_overflow)))

theorem legalPlan_illegal : LegalPlan (raiseError .illegal) := .raiseError (.inr (.inr (.inr packStatus_illegal)))

/-! ## Frames to the digit registers -/

/-- A digit index in [0,7] is routed to one of the addresses 0x01 to 0x08 (R27, R96). -/
theorem legalAddr_digitFrame {i : Nat} (hi : i < 8) (v : Byte) : LegalAddr (digitFrame Config.params i v).addr := by
  refine .inl ?_
  rw [digitFrame, digitAddr_eq, BitVec.toNat_ofNat]
  omega

theorem legalAddr_digitLoop {pos : Nat → Nat} {n m : Nat} (hpos : ∀ j < n, pos j < 8) :
    ∀ f ∈ digitLoop Config.params pos n 0 m, LegalAddr f.addr := by
  intro f hf
  rw [digitLoop_zero, List.mem_map] at hf
  obtain ⟨j, hj, rfl⟩ := hf
  exact legalAddr_digitFrame (hpos j (List.mem_range.1 hj)) _

theorem legalAddr_signFrames {i : Nat} (hi : i < 8) (negative : Bool) :
    ∀ f ∈ signFrames Config.params i negative, LegalAddr f.addr := by
  intro f hf
  cases negative with
  | false => exact absurd hf List.not_mem_nil
  | true => exact List.mem_singleton.1 hf ▸ legalAddr_digitFrame hi _

theorem legalAddr_clearFrames : ∀ f ∈ clearFrames Config.params, LegalAddr f.addr := by
  intro f hf
  obtain ⟨i, hi, rfl⟩ := List.mem_map.1 hf
  exact legalAddr_digitFrame (List.mem_range.1 hi) _

/-- Digits, then a sign: the shape of R92 and R102. -/
theorem legalPlan_digits {pos : Nat → Nat} {n m i : Nat} (hpos : ∀ j < n, pos j < 8) (hi : i < 8) (negative : Bool) :
    LegalPlan (emitThenOk (digitLoop Config.params pos n 0 m ++ signFrames Config.params i negative)) :=
  .emitThenOk (List.forall_mem_append.2 ⟨legalAddr_digitLoop hpos, legalAddr_signFrames hi negative⟩)

/-! ## The plans of the commands -/

theorem legalPlan_displayByte (row value : Byte) : LegalPlan (planDisplayByte Config.params row value) := by
  unfold planDisplayByte
  split
  · exact legalPlan_outOfRange
  · exact .emitThenOk (List.forall_mem_singleton.2 (legalAddr_digitFrame (by omega) _))

theorem legalPlan_displayBcdDigit (digit value : Byte) : LegalPlan (planDisplayBcdDigit Config.params digit value) := by
  unfold planDisplayBcdDigit
  split
  · exact legalPlan_outOfRange
  · exact .emitThenOk (List.forall_mem_singleton.2 (legalAddr_digitFrame (by omega) _))

theorem legalPlan_displayBcdInt (value : Int) (segments : Byte) :
    LegalPlan (planDisplayBcdInt Config.params value segments) := by
  unfold planDisplayBcdInt
  split
  · exact legalPlan_outOfRange
  · exact legalPlan_digits (fun j hj => show j < 8 by omega) (by decide) _

theorem legalPlan_displayFixed (scaled : Int) (decimals segments : Byte) :
    LegalPlan (planDisplayFixed Config.params scaled decimals segments) := by
  unfold planDisplayFixed
  split
  · exact legalPlan_outOfRange
  · next hvalid =>
    have hseg : segments.toNat ≤ 8 := by
      simp only [Bool.not_eq_false, fixedOperandsValid, Bool.and_eq_true, decide_eq_true_eq] at hvalid
      exact hvalid.2
    have hdigits : fixedDigits scaled segments.toNat ≤ segments.toNat := by
      unfold fixedDigits; split <;> omega
    split
    · exact legalPlan_overflow
    · exact legalPlan_digits (fun j hj => by omega) (by omega) _

theorem legalPlan_init (mode : InitMode) : LegalPlan (planInit Config.params mode) := by
  have hsettings : ∀ f ∈ ([⟨0xB, 0x04⟩, ⟨0xA, 0x0F⟩, ⟨0xC, 0xFF⟩] : List Frame), LegalAddr f.addr := by
    unfold LegalAddr; decide
  have hdecode : ∀ f ∈ ([⟨0x9, 0x0F⟩] : List Frame), LegalAddr f.addr := by
    unfold LegalAddr; decide
  have hraw := List.forall_mem_append.2 ⟨hsettings, legalAddr_clearFrames⟩
  cases mode with
  | none => exact .emitThenOk fun _ hf => absurd hf List.not_mem_nil
  | raw => rw [planInit_raw]; exact .emitThenOk hraw
  | bcd => rw [planInit_bcd]; exact .emitThenOk (List.forall_mem_append.2 ⟨hraw, hdecode⟩)

/-- Every command's plan is legal. -/
theorem legalPlan_planOf (i : Instr) : LegalPlan (planOf i) := by
  cases i with
  | displayByte row value => exact legalPlan_displayByte row value
  | displayVector row vector => exact legalPlan_displayByte row (packVector vector)
  | displayMatrix m => rw [planOf_displayMatrix]; exact .emitThenOk (by simp [LegalAddr])
  | displayBcdDigit digit value => exact legalPlan_displayBcdDigit digit value
  | displayBcdInt value segments => exact legalPlan_displayBcdInt value segments
  | displayFixed scaled decimals segments => exact legalPlan_displayFixed scaled decimals segments
  | setDecodeMode | setIntensity | setScanLimit | setPower | setDisplayTest =>
    exact .emitThenOk (List.forall_mem_singleton.2 (by simp [LegalAddr, Config.params]))
  | clear => exact .emitThenOk legalAddr_clearFrames
  | init mode => exact legalPlan_init mode

end Sys2Proof.Machine
end

section
/-! SUPPORT. What a step emits and where it leaves the block: the frames every step adds, and the two ends of an
undisturbed step. -/

namespace Sys2Proof.Machine

/-! ## The frames of a step -/

theorem emitted_runPlan {p : Plan} (hp : ∀ f ∈ p.frames, LegalAddr f.addr) (len : Nat) (mark : Nat → Sequencer)
    (k : Nat) (s : State) : ∃ fs, Emitted fs s (runPlan len mark p k s) ∧ ∀ f ∈ fs, LegalAddr f.addr := by
  obtain ⟨n, hem, -⟩ := runPlan_spec len mark p k s
  exact ⟨_, hem, fun f hf => hp f (List.mem_of_mem_drop (List.mem_of_mem_take hf))⟩

theorem emitted_takeCommand {p : Plan} (hp : ∀ f ∈ p.frames, LegalAddr f.addr) (len : Nat) (mark : Nat → Sequencer)
    (s : State) : ∃ fs, Emitted fs s (takeCommand len mark p s) ∧ ∀ f ∈ fs, LegalAddr f.addr := by
  rcases takeCommand_cases len mark p s with ⟨-, -, hw⟩ | hr
  · exact hw ▸ ⟨[], emitted_awaitPayload s, fun _ hf => absurd hf List.not_mem_nil⟩
  · exact hr ▸ emitted_runPlan hp len mark 0 s

/-- A block reset emits nothing (R151). -/
theorem emitted_blockReset (restart : Restart) (n : Nat) (s : State) : Emitted [] s (blockReset restart (spendEvent n s)) :=
  ⟨by simp, by simp, fun _ => rfl, fun h => h, rfl⟩

/-- Every step emits some frames, all to legal addresses, and nothing else happens to the trace, the channel, `D` and the
stream (R26, R47, R49). -/
theorem step_emitted {s t : State} (h : step s = .next t) : ∃ fs, Emitted fs s t ∧ ∀ f ∈ fs, LegalAddr f.addr := by
  cases step_next h with
  | taken i _ _ run => exact run ▸ emitted_takeCommand (legalPlan_planOf i).addrs _ _ s
  | resumed i k _ run => exact run ▸ emitted_runPlan (legalPlan_planOf i).addrs _ _ k s
  | illegal why len _ _ run => exact run ▸ emitted_takeCommand legalPlan_illegal.addrs _ _ s
  | waits len _ _ run => exact run ▸ ⟨[], emitted_awaitPayload s, fun _ hf => absurd hf List.not_mem_nil⟩
  | resetOnly m restart _ _ run => exact run ▸ ⟨[], emitted_blockReset restart 0 s, fun _ hf => absurd hf List.not_mem_nil⟩

/-! ## Undisturbed steps -/

/-- The two ends of an undisturbed step: a command whose words are all there completes, and a header with words missing is
taken to wait (R21, R138, R158). -/
inductive UndisturbedEnd (s t : State) : Prop where
  | completed (len : Nat) (frames : List Frame) (status : BitVec 16) (at_wp : CompleteAt len s)
      (done : Completed len frames status s t) (legal : LegalStatus status) (env : t.env = s.env.tail)
  | waits (h : Word) (later : List Word) (at_wp : s.stream.drop s.wp = h :: later)
      (short : later.length + 1 < lengthOfOpc (headerOpc h)) (run : t = awaitPayload s)

/-- An undisturbed block that takes a complete command completes it within the step. -/
theorem undisturbedEnd_takeCommand {s : State} (hq : nextEvent s = .quiet) {len : Nat} (hat : CompleteAt len s) {p : Plan}
    (hp : LegalPlan p) (mark : Nat → Sequencer) : UndisturbedEnd s (takeCommand len mark p s) := by
  rw [takeCommand_quiet len mark p s hq]
  exact .completed len p.frames _ hat (runPlan_completed len mark p s hq) hp.status (runPlan_env_quiet len mark p 0 s hq)

theorem undisturbed_step {s t : State} (hu : Undisturbed s) (h : step s = .next t) : UndisturbedEnd s t := by
  obtain ⟨hidle, hquiet⟩ := hu
  cases step_next h with
  | taken i _ at_wp run =>
    exact run ▸ undisturbedEnd_takeCommand hquiet (completeAt_of_command at_wp) (legalPlan_planOf i) _
  | resumed i k seq _ => rw [hidle] at seq; cases seq
  | illegal why len _ at_wp run =>
    exact run ▸ undisturbedEnd_takeCommand hquiet (completeAt_of_illegal at_wp) legalPlan_illegal _
  | waits len _ at_wp run =>
    obtain ⟨hdr, later, hdrop, hshort⟩ := short_of_incomplete at_wp
    exact .waits hdr later hdrop hshort run
  | resetOnly m restart _ event _ => rw [hquiet] at event; cases event

/-- Legal STATUS values have no reserved bit, no STEPMASK, and neither STEP_FAILED nor TRANSPORT_ERROR (R22, R23). -/
theorem LegalStatus.fields {st : BitVec 16} (h : LegalStatus st) :
    statusReserved st = 0 ∧ statusStepMask st = 0 ∧ statusCode st ≠ 0x2 ∧ statusCode st ≠ 0x5 := by
  rcases h with rfl | rfl | rfl | rfl <;> decide

end Sys2Proof.Machine
end

section
/-! PROOFS. What a step emits, and what an undisturbed step leaves. -/

namespace Sys2Proof.Machine

/-- Settles O29: the frames are those `step_emitted` gives. -/
theorem stepsOnlyAppendFrames : Obligations.StepsOnlyAppendFrames := by
  intro s t h
  obtain ⟨fs, hem, -⟩ := step_emitted h
  exact ⟨fs, hem.trace, hem.channel, hem.dev⟩

/-- Settles O25: an undisturbed step completes the command at `WP`, or waits for its missing words. -/
theorem wordPointerMovesByTheCommandLength : Obligations.WordPointerMovesByTheCommandLength := by
  intro s t hu h
  cases undisturbed_step hu h with
  | completed len frames status at_wp done _ _ =>
    have hwp : t.wp ≤ s.stream.length := done.wp ▸ at_wp.wp_le
    obtain ⟨hdr, later, hdrop, rfl, hle⟩ := at_wp
    refine ⟨hdr, later, hdrop, hwp, done.stream, ?_⟩
    rw [if_pos hle]
    exact ⟨done.wp, done.seq⟩
  | waits hdr later at_wp short run =>
    have hwp : s.wp ≤ s.stream.length := by
      have := congrArg List.length at_wp
      simp only [List.length_drop, List.length_cons] at this
      omega
    subst run
    refine ⟨hdr, later, at_wp, hwp, rfl, ?_⟩
    rw [if_neg (Nat.not_le.2 short)]
    exact ⟨rfl, rfl⟩

/-- Settles O35: an undisturbed step that ends in IDLE has completed a command, and every plan's result is legal. -/
theorem statusIsOneOfFourValues : Obligations.StatusIsOneOfFourValues := by
  intro s t hu h hidle
  cases undisturbed_step hu h with
  | completed len frames status _ done legal _ =>
    have hlegal : LegalStatus t.status := done.status ▸ legal
    exact ⟨hlegal, hlegal.fields⟩
  | waits hdr later _ _ run => subst run; cases hidle

/-- Settles O45: both ends of an undisturbed step use up the quiet event at the head of the schedule. -/
theorem undisturbedStepUsesOneEvent : Obligations.UndisturbedStepUsesOneEvent := by
  intro s t hu h
  cases undisturbed_step hu h with
  | completed _ _ _ _ _ _ env => exact env
  | waits _ _ _ _ run => exact run ▸ spendEvent_env_quiet 0 s hu.2

end Sys2Proof.Machine
end

section
/-! PROOFS. The invariant of the machine (O47): its clauses on `D`, the trace and the channel
follow from what a step emits, the other three from how it ends. -/

namespace Sys2Proof.Machine

/-- The clauses of the invariant that a step's frames do not settle: `WP`, STATUS and the sequencer after it. -/
structure ControlFits (s t : State) : Prop where
  wp : t.wp ≤ s.stream.length
  status : LegalStatus t.status
  seq : SequencerFits t

/-- The clauses on `D`, the trace and the channel follow from what was emitted. -/
theorem Inv.of_emitted {s t : State} {fs : List Frame} (hs : Inv s) (hem : Emitted fs s t)
    (haddrs : ∀ f ∈ fs, LegalAddr f.addr) (hc : ControlFits s t) : Inv t where
  wp := hem.stream ▸ hc.wp
  status := hc.status
  seq := hc.seq
  devCanonical := hem.devCanonical hs.devCanonical
  dev a := by
    rw [hem.dev, hem.trace]
    simp only [imageAfter, hs.dev, lastWrite_append, Option.or_assoc]
  addrs := hem.trace ▸ List.forall_mem_append.2 ⟨hs.addrs, haddrs⟩
  channel := by rw [hem.channel, hem.trace, hs.channel, List.flatMap_append]

theorem sequencerFits_idle {t : State} (h : t.seq = .idle) : SequencerFits t := by
  simp [SequencerFits, h]

theorem sequencerFits_waiting {t : State} {h : Word} {later : List Word} (hs : t.seq = .waiting)
    (hdrop : t.stream.drop t.wp = h :: later) (hlen : 1 < lengthOfOpc (headerOpc h)) : SequencerFits t := by
  simp only [SequencerFits, hs]
  exact ⟨h, later, hdrop, hlen⟩

theorem sequencerFits_busy {t : State} {i : Instr} {k : Nat} (hs : t.seq = .busy i k) :
    SequencerFits t ↔ fetch t = .command i ∧ k < (planOf i).frames.length := by
  simp only [SequencerFits, hs]

theorem restartWp_le (restart : Restart) (wp : Nat) : restartWp restart wp ≤ wp := by
  cases restart <;> simp [restartWp]

/-- Waiting fits when the header at `WP` takes payload. -/
theorem controlFits_awaitPayload {s : State} (hs : Inv s) {h : Word} {later : List Word}
    (hdrop : s.stream.drop s.wp = h :: later) (hlen : 1 < lengthOfOpc (headerOpc h)) : ControlFits s (awaitPayload s) :=
  ⟨hs.wp, hs.status, sequencerFits_waiting rfl hdrop hlen⟩

theorem controlFits_blockReset {s : State} (hs : Inv s) (restart : Restart) (n : Nat) :
    ControlFits s (blockReset restart (spendEvent n s)) :=
  ⟨(restartWp_le restart s.wp).trans hs.wp, .inl rfl, sequencerFits_idle rfl⟩

/-- Wherever the plan `p` is held with a frame still to come, the mark of that frame fits the words at `WP` (R25, log entry
16). -/
def HeldFits (mark : Nat → Sequencer) (p : Plan) (s : State) : Prop :=
  ∀ (t : State) (n : Nat), n < p.frames.length → t.stream = s.stream → t.wp = s.wp → t.seq = mark n → SequencerFits t

/-- A held command fits: the stream and `WP` have not moved, so it still stands at `WP`. -/
theorem heldFits_command {s : State} {i : Instr} (hf : fetch s = .command i) :
    HeldFits (Sequencer.busy i) (planOf i) s := by
  intro t n hn hstream hwp hseq
  refine (sequencerFits_busy hseq).2 ⟨?_, hn⟩
  rw [fetch, hstream, hwp]
  exact hf

/-- An ILLEGAL command is never held: it has no frame (R133). -/
theorem heldFits_illegal (mark : Nat → Sequencer) (s : State) : HeldFits mark (raiseError .illegal) s :=
  fun _ _ hn => absurd hn (Nat.not_lt_zero _)

/-- Running the plan of the command at `WP` ends IDLE, behind the command or after a reset, or is held where it fits. -/
theorem controlFits_runPlan {s : State} (hs : Inv s) {p : Plan} (hp : LegalPlan p) {len : Nat}
    (hlen : s.wp + len ≤ s.stream.length) {mark : Nat → Sequencer} {k : Nat} (hheld : HeldFits mark p s) :
    ControlFits s (runPlan len mark p k s) := by
  obtain ⟨n, hem, hend⟩ := runPlan_spec len mark p k s
  cases hend with
  | done _ status wp seq => exact ⟨wp ▸ hlen, status ▸ hp.status, sequencerFits_idle seq⟩
  | held more status wp seq =>
    rw [List.length_drop] at more
    exact ⟨wp ▸ hs.wp, status ▸ hs.status, hheld _ (k + n) (by omega) hem.stream wp seq⟩
  | abandoned restart _ status wp seq =>
    exact ⟨wp ▸ (restartWp_le restart s.wp).trans hs.wp, .inl status, sequencerFits_idle seq⟩

/-- Taking the complete command at `WP` runs its plan, or waits for its late payload. -/
theorem controlFits_takeCommand {s : State} (hs : Inv s) {p : Plan} (hp : LegalPlan p) {len : Nat}
    (hat : CompleteAt len s) {mark : Nat → Sequencer} (hheld : HeldFits mark p s) :
    ControlFits s (takeCommand len mark p s) := by
  rcases takeCommand_cases len mark p s with ⟨-, hlong, hw⟩ | hr
  · obtain ⟨h, later, hdrop, rfl, -⟩ := hat
    exact hw ▸ controlFits_awaitPayload hs hdrop hlong
  · exact hr ▸ controlFits_runPlan hs hp hat.wp_le hheld

/-- Each case of a step is one of the operations above. -/
theorem step_controlFits {s t : State} (hs : Inv s) (h : step s = .next t) : ControlFits s t := by
  cases step_next h with
  | taken i _ at_wp run =>
    exact run ▸ controlFits_takeCommand hs (legalPlan_planOf i) (completeAt_of_command at_wp) (heldFits_command at_wp)
  | resumed i k seq run =>
    obtain ⟨at_wp, -⟩ := (sequencerFits_busy seq).1 hs.seq
    exact run ▸ controlFits_runPlan hs (legalPlan_planOf i) (completeAt_of_command at_wp).wp_le (heldFits_command at_wp)
  | illegal why len _ at_wp run =>
    exact run ▸ controlFits_takeCommand hs legalPlan_illegal (completeAt_of_illegal at_wp) (heldFits_illegal _ s)
  | waits len _ at_wp run =>
    obtain ⟨hdr, later, hdrop, hshort⟩ := short_of_incomplete at_wp
    exact run ▸ controlFits_awaitPayload hs hdrop (by omega)
  | resetOnly m restart _ _ run => exact run ▸ controlFits_blockReset hs restart 0

/-- Settles O47: what a step emits keeps `D`, the trace and the channel in line, and its end fits the rest. -/
theorem everyStepKeepsTheInvariant : Obligations.EveryStepKeepsTheInvariant := by
  intro s t hs h
  obtain ⟨fs, hem, haddrs⟩ := step_emitted h
  exact hs.of_emitted hem haddrs (step_controlFits hs h)

end Sys2Proof.Machine
end

section
/-! SUPPORT. Emitting frames as one update of the state: what it writes, and that STATUS and the sequencer are not looked
at. -/

namespace Sys2Proof.Machine

/-- `D` after frames, as data: the write of each frame in turn (R26). -/
def Memory.writeFrames (m : Memory) (fs : List Frame) : Memory :=
  fs.foldl (fun d f => d.write f.addr f.value) m

/-- Emitting frames writes `D`, the trace and the channel, from the frames alone. -/
theorem emitAll_eq (fs : List Frame) (s : State) :
    emitAll fs s = { s with
      dev := s.dev.writeFrames fs
      trace := s.trace ++ fs
      channel := s.channel ++ fs.flatMap frameOps } := by
  induction fs generalizing s with
  | nil => simp [Memory.writeFrames]
  | cons f later ih => simp [emitAll, ih, emitFrame, Memory.writeFrames]

end Sys2Proof.Machine
end

section
/-! PROOFS. No step reads STATUS or `D` (O36, O37): with other values in these two fields, every operation does the same up
to these two fields. -/

namespace Sys2Proof.Machine

/-- `s` with any other values in the two fields. -/
def State.withUnread (s : State) (x : BitVec 16) (d : Memory) : State := { s with status := x, dev := d }

@[simp] theorem withUnread_seq (s : State) (x : BitVec 16) (d : Memory) : (s.withUnread x d).seq = s.seq := rfl

@[simp] theorem fetch_withUnread (s : State) (x : BitVec 16) (d : Memory) : fetch (s.withUnread x d) = fetch s := rfl

@[simp] theorem nextEvent_withUnread (s : State) (x : BitVec 16) (d : Memory) :
    nextEvent (s.withUnread x d) = nextEvent s := rfl

theorem busy_ne_idle (i : Instr) (k : Nat) : Sequencer.busy i k ≠ .idle := nofun

/-- `t'` is what `t` would be had the step from `s` started with STATUS `x` and image `d`: all other fields are the same,
STATUS is the same unless it was left as it was in a block that is not IDLE, and `D` is the same if it was before. -/
structure SameButUnread (x : BitVec 16) (d : Memory) (s t t' : State) : Prop where
  rest : { t' with status := t.status, dev := t.dev } = t
  status : t'.status = t.status ∨ t.seq ≠ .idle ∧ t.status = s.status ∧ t'.status = x
  dev : d = s.dev → t'.dev = t.dev

/-- The second outcome is of the first one's kind, with the same reason or with a next state that agrees. -/
def SameOutcome (x : BitVec 16) (d : Memory) (s : State) (o o' : Host.Outcome State Fault Refusal) : Prop :=
  match o with
  | .next t => ∃ t', o' = .next t' ∧ SameButUnread x d s t t'
  | .fault f => o' = .fault f
  | .refused r => o' = .refused r

theorem SameOutcome.next {x : BitVec 16} {d : Memory} {s t t' : State} (h : SameButUnread x d s t t') :
    SameOutcome x d s (.next t) (.next t') :=
  ⟨t', rfl, h⟩

section
variable (x : BitVec 16) (d : Memory) (s : State)

theorem blockReset_unread (restart : Restart) (n : Nat) :
    SameButUnread x d s (blockReset restart (spendEvent n s))
      (blockReset restart (spendEvent n (s.withUnread x d))) :=
  ⟨rfl, .inl rfl, fun h => h⟩

theorem awaitPayload_unread : SameButUnread x d s (awaitPayload s) (awaitPayload (s.withUnread x d)) :=
  ⟨rfl, .inr ⟨nofun, rfl, rfl⟩, fun h => h⟩

/-- The frames, the end of the run and `WP` come from the plan and the event; a block held in the middle is not IDLE. -/
theorem runPlan_unread (len : Nat) {mark : Nat → Sequencer} {p : Plan} (k : Nat)
    (hmark : ∀ n < p.frames.length, mark n ≠ .idle) :
    SameButUnread x d s (runPlan len mark p k s) (runPlan len mark p k (s.withUnread x d)) := by
  have hdev (fs : List Frame) (h : d = s.dev) : d.writeFrames fs = s.dev.writeFrames fs := h ▸ rfl
  simp only [runPlan, nextEvent_withUnread, emitAll_eq]
  cases nextEvent s with
  | quiet | late | reset => exact ⟨rfl, .inl rfl, hdev _⟩
  | hold m | stall m =>
    dsimp only
    split
    · next hlt =>
      have hk := List.length_drop (i := k) (l := p.frames)
      exact ⟨rfl, .inr ⟨hmark _ (by omega), rfl, rfl⟩, hdev _⟩
    · exact ⟨rfl, .inl rfl, hdev _⟩

theorem takeCommand_unread (len : Nat) {mark : Nat → Sequencer} {p : Plan}
    (hmark : ∀ n < p.frames.length, mark n ≠ .idle) :
    SameButUnread x d s (takeCommand len mark p s) (takeCommand len mark p (s.withUnread x d)) := by
  have hl : payloadLate len (s.withUnread x d) = payloadLate len s := rfl
  simp only [takeCommand, hl]
  split
  · exact awaitPayload_unread x d s
  · exact runPlan_unread x d s len 0 hmark

theorem runIllegal_unread (len : Nat) :
    SameButUnread x d s (runIllegal len s) (runIllegal len (s.withUnread x d)) :=
  takeCommand_unread x d s len fun _ hn => absurd hn (Nat.not_lt_zero _)

theorem exec_unread (i : Instr) : SameOutcome x d s (exec i s) (exec i (s.withUnread x d)) := by
  simp only [exec_eq_accept, accept, withUnread_seq]
  cases s.seq with
  | idle => exact .next (takeCommand_unread x d s _ fun n _ => busy_ne_idle i n)
  | waiting | busy => rfl

theorem stopUnlessReset_unread (why : Fault) :
    SameOutcome x d s (stopUnlessReset why s) (stopUnlessReset why (s.withUnread x d)) := by
  simp only [stopUnlessReset, nextEvent_withUnread]
  cases nextEvent s with
  | reset m restart => exact .next (blockReset_unread x d s restart 0)
  | quiet | late | hold | stall => rfl

theorem waitUnlessReset_unread :
    SameButUnread x d s (waitUnlessReset s) (waitUnlessReset (s.withUnread x d)) := by
  simp only [waitUnlessReset, nextEvent_withUnread]
  cases nextEvent s with
  | reset m restart => exact blockReset_unread x d s restart 0
  | quiet | late | hold | stall => exact awaitPayload_unread x d s

theorem resume_unread (i : Instr) (k : Nat) :
    SameOutcome x d s (resume i k s) (resume i k (s.withUnread x d)) := by
  have hst : isStalled i k (s.withUnread x d) = isStalled i k s := rfl
  simp only [resume, hst]
  split
  · rfl
  · exact .next (runPlan_unread x d s _ k fun n _ => busy_ne_idle i n)

theorem resumeWaiting_unread : SameOutcome x d s (resumeWaiting s) (resumeWaiting (s.withUnread x d)) := by
  simp only [resumeWaiting, fetch_withUnread]
  cases fetch s with
  | command i =>
    dsimp only
    rw [exec_setIdle i s, exec_setIdle i (s.withUnread x d)]
    exact .next (takeCommand_unread x d s _ fun n _ => busy_ne_idle i n)
  | illegal why len => exact .next (runIllegal_unread x d s len)
  | incomplete | exhausted => exact stopUnlessReset_unread x d s _

/-- With any other STATUS and image put into the state, a step answers the same outcome up to these two fields. -/
theorem step_unread : SameOutcome x d s (step s) (step (s.withUnread x d)) := by
  simp only [step, withUnread_seq, fetch_withUnread]
  cases s.seq with
  | busy i k => exact resume_unread x d s i k
  | waiting => exact resumeWaiting_unread x d s
  | idle =>
    dsimp only
    cases fetch s with
    | command i => exact exec_unread x d s i
    | illegal why len => exact .next (runIllegal_unread x d s len)
    | incomplete len => exact .next (waitUnlessReset_unread x d s)
    | exhausted => exact stopUnlessReset_unread x d s _

end

/-- With the image as it was, the next states differ at most in STATUS, and not when the block is IDLE. -/
theorem SameButUnread.status_only {x : BitVec 16} {s t t' : State} (h : SameButUnread x s.dev s t t') :
    { t' with status := t.status } = t ∧ (t.seq = .idle → t' = t) := by
  have hrest := h.rest
  rw [← h.dev rfl] at hrest
  refine ⟨hrest, fun hidle => ?_⟩
  rcases h.status with hst | ⟨hbusy, -, -⟩
  · rwa [← hst] at hrest
  · exact absurd hidle hbusy

/-- With STATUS as it was, the next states differ at most in the image. -/
theorem SameButUnread.dev_only {d : Memory} {s t t' : State} (h : SameButUnread s.status d s t t') :
    { t' with dev := t.dev } = t := by
  have hst : t'.status = t.status := by
    rcases h.status with hst | ⟨-, ht, ht'⟩
    · exact hst
    · exact ht'.trans ht.symm
  have hrest := h.rest
  rwa [← hst] at hrest

/-- Settles O36: `step_unread` with the image as it was. -/
theorem nothingReadsStatus : Obligations.NothingReadsStatus := by
  intro s x
  have h := step_unread x s.dev s
  revert h
  cases step s with
  | next t => exact fun ⟨t', ht', hsame⟩ => ⟨t', ht', hsame.status_only⟩
  | fault | refused => exact id

/-- Settles O37: `step_unread` with STATUS as it was. -/
theorem nothingReadsTheDevice : Obligations.NothingReadsTheDevice := by
  intro s d
  have h := step_unread s.status d s
  revert h
  cases step s with
  | next t => exact fun ⟨t', ht', hsame⟩ => ⟨t', ht', hsame.dev_only⟩
  | fault | refused => exact id

end Sys2Proof.Machine
end

section
/-! PROOFS. A command seen frame by frame reaches the state of the command run as one step (O44): the held block is tied to
the number of frames that are out, and the induction is over the events. -/

namespace Sys2Proof.Machine

/-- The two events that hold a command up and leave it to complete later (log entry 1). -/
def Delays (e : EnvEvent) : Prop := e = .late ∨ ∃ m, e = .hold m

/-- `s` with the first `k` frames of `i` out, the sequencer at `q` and these events to come. -/
def heldAt (i : Instr) (k : Nat) (q : Sequencer) (events : List EnvEvent) (s : State) : State :=
  { emitAll ((planOf i).frames.take k) s with seq := q, env := events }

/-- `s` with `i` completed and these events not yet used. -/
def doneWith (i : Instr) (later : List EnvEvent) (s : State) : State :=
  { finish (planOf i).code (planOf i).mask (commandLength i) (emitAll (planOf i).frames s) with env := later }

@[simp] theorem nextEvent_heldAt (i : Instr) (k : Nat) (q : Sequencer) (e : EnvEvent) (later : List EnvEvent) (s : State) :
    nextEvent (heldAt i k q (e :: later) s) = e := rfl

@[simp] theorem nextEvent_heldAt_nil (i : Instr) (k : Nat) (q : Sequencer) (s : State) :
    nextEvent (heldAt i k q [] s) = .quiet := rfl

@[simp] theorem fetch_heldAt (i : Instr) (k : Nat) (q : Sequencer) (events : List EnvEvent) (s : State) :
    fetch (heldAt i k q events s) = fetch s := by
  simp [fetch, heldAt]

/-- Emitting frames leaves the sequencer and the events as they are put. -/
theorem emitAll_setSeqEnv (fs : List Frame) (q : Sequencer) (events : List EnvEvent) (s : State) :
    emitAll fs { s with seq := q, env := events } = { emitAll fs s with seq := q, env := events } := by
  simp only [emitAll_eq]

/-- With `n` more frames out, the block is held `n` frames later. -/
theorem emitAll_take_heldAt (i : Instr) (k n : Nat) (q : Sequencer) (events : List EnvEvent) (s : State) :
    emitAll (((planOf i).frames.drop k).take n) (heldAt i k q events s) = heldAt i (k + n) q events s := by
  rw [heldAt, heldAt, emitAll_setSeqEnv, ← emitAll_append, List.take_add]

/-- With the remaining frames out, all of the command's frames are. -/
theorem emitAll_drop_heldAt (i : Instr) (k : Nat) (q : Sequencer) (events : List EnvEvent) (s : State) :
    emitAll ((planOf i).frames.drop k) (heldAt i k q events s) =
      { emitAll (planOf i).frames s with seq := q, env := events } := by
  rw [heldAt, emitAll_setSeqEnv, ← emitAll_append, List.take_append_drop]

/-! ## One step of the held block -/

/-- A hold before the last remaining frame leaves the block BUSY (R25). -/
theorem runPlan_hold_more (len : Nat) (mark : Nat → Sequencer) {p : Plan} {k m : Nat} {s : State}
    (he : nextEvent s = .hold m) (hm : m < (p.frames.drop k).length) :
    runPlan len mark p k s = { spendEvent m (emitAll ((p.frames.drop k).take m) s) with seq := mark (k + m) } := by
  simp only [runPlan, he, framesBefore, Nat.min_eq_left (Nat.le_of_lt hm), if_pos hm]

/-- A hold with no frame left lets the command complete (log entry 16). -/
theorem runPlan_hold_all (len : Nat) (mark : Nat → Sequencer) {p : Plan} {k m : Nat} {s : State}
    (he : nextEvent s = .hold m) (hm : (p.frames.drop k).length ≤ m) :
    runPlan len mark p k s =
      finish p.code p.mask len (spendEvent (p.frames.drop k).length (emitAll (p.frames.drop k) s)) := by
  simp only [runPlan, he, framesBefore, Nat.min_eq_right hm, Nat.lt_irrefl, if_false, List.take_length]

/-- With no event to come the command completes. -/
theorem runPlan_heldAt_nil (i : Instr) (k : Nat) (q : Sequencer) (s : State) :
    runPlan (commandLength i) (Sequencer.busy i) (planOf i) k (heldAt i k q [] s) = doneWith i [] s := by
  simp only [runPlan, nextEvent_heldAt_nil, framesBefore, List.take_length, emitAll_drop_heldAt]
  rfl

/-- A delaying event lets the command complete or holds it at a later frame. -/
theorem runPlan_heldAt_cons (i : Instr) (k : Nat) (q : Sequencer) {e : EnvEvent} (he : Delays e) (later : List EnvEvent)
    (s : State) :
    runPlan (commandLength i) (Sequencer.busy i) (planOf i) k (heldAt i k q (e :: later) s) = doneWith i later s ∨
      ∃ k', runPlan (commandLength i) (Sequencer.busy i) (planOf i) k (heldAt i k q (e :: later) s) =
        heldAt i k' (.busy i k') later s := by
  rcases he with rfl | ⟨m, rfl⟩
  · simp only [runPlan, nextEvent_heldAt, framesBefore, List.take_length, emitAll_drop_heldAt]
    exact .inl rfl
  · by_cases hmore : m < ((planOf i).frames.drop k).length
    · rw [runPlan_hold_more _ _ (nextEvent_heldAt ..) hmore, emitAll_take_heldAt]
      exact .inr ⟨k + m, rfl⟩
    · rw [runPlan_hold_all _ _ (nextEvent_heldAt ..) (Nat.le_of_not_lt hmore), emitAll_drop_heldAt]
      exact .inl rfl

/-- A block held at a frame goes on, as a delaying event is no stall. -/
theorem step_heldAt_busy (i : Instr) (k : Nat) (events : List EnvEvent) (s : State) (h : ∀ e ∈ events, Delays e) :
    step (heldAt i k (.busy i k) events s) =
      .next (runPlan (commandLength i) (Sequencer.busy i) (planOf i) k (heldAt i k (.busy i k) events s)) := by
  have hst : isStalled i k (heldAt i k (.busy i k) events s) = false := by
    cases events with
    | nil => rfl
    | cons e later => rcases h e List.mem_cons_self with rfl | ⟨m, rfl⟩ <;> rfl
  show resume i k _ = _
  rw [resume, hst]
  rfl

/-! ## The run -/

/-- The run from `x` completes `i` over `s`, in at most one step more than there are events. -/
def ReachesDone (i : Instr) (s : State) (events : List EnvEvent) (x : State) : Prop :=
  ∃ n later, n ≤ events.length + 1 ∧ Sys2Proof.core.run n x = .next (doneWith i later s)

theorem ReachesDone.of_done {i : Instr} {s x : State} {events later : List EnvEvent}
    (h : step x = .next (doneWith i later s)) : ReachesDone i s events x :=
  ⟨1, later, by omega, (run_succ_of_next h 0).trans (run_zero _)⟩

theorem ReachesDone.of_step {i : Instr} {s x y : State} {e : EnvEvent} {events : List EnvEvent}
    (h : step x = .next y) (hy : ReachesDone i s events y) : ReachesDone i s (e :: events) x := by
  obtain ⟨n, later, hn, hrun⟩ := hy
  exact ⟨n + 1, later, Nat.succ_le_succ hn, (run_succ_of_next h n).trans hrun⟩

/-- From BUSY: each event completes the command or moves the block on to a later frame. -/
theorem reachesDone_busy (i : Instr) (s : State) {events : List EnvEvent} (h : ∀ e ∈ events, Delays e) (k : Nat) :
    ReachesDone i s events (heldAt i k (.busy i k) events s) := by
  have hstep := step_heldAt_busy i k events s h
  induction events generalizing k with
  | nil => exact .of_done (runPlan_heldAt_nil i k _ s ▸ hstep)
  | cons e later ih =>
    obtain ⟨he, hlater⟩ := List.forall_mem_cons.1 h
    rcases runPlan_heldAt_cons i k (.busy i k) he later s with hd | ⟨k', hk⟩
    · exact .of_done (hd ▸ hstep)
    · exact .of_step (hk ▸ hstep) (ih hlater k' (step_heldAt_busy i k' later s hlater))

/-- From IDLE or BUSY-waiting: each event keeps the block waiting, or the command is run and is BUSY or complete. -/
theorem reachesDone_boundary {i : Instr} {s : State} (hf : fetch s = .command i) {events : List EnvEvent}
    (h : ∀ e ∈ events, Delays e) {q : Sequencer} (hq : q = .idle ∨ q = .waiting) :
    ReachesDone i s events (heldAt i 0 q events s) := by
  have hstep := step_of_command (s := heldAt i 0 q events s) hq ((fetch_heldAt i 0 q events s).trans hf)
  induction events generalizing q with
  | nil =>
    rw [takeCommand_quiet _ _ _ _ (nextEvent_heldAt_nil i 0 q s), runPlan_heldAt_nil] at hstep
    exact .of_done hstep
  | cons e later ih =>
    obtain ⟨he, hlater⟩ := List.forall_mem_cons.1 h
    rcases takeCommand_cases (commandLength i) (Sequencer.busy i) (planOf i) (heldAt i 0 q (e :: later) s) with
      ⟨hlate, -, hw⟩ | hr
    · have hwait : awaitPayload (heldAt i 0 q (e :: later) s) = heldAt i 0 .waiting later s := by
        rw [nextEvent_heldAt] at hlate
        subst hlate
        rfl
      rw [hw, hwait] at hstep
      exact .of_step hstep (ih hlater (.inr rfl) (step_of_command (.inr rfl) ((fetch_heldAt ..).trans hf)))
    · rw [hr] at hstep
      rcases runPlan_heldAt_cons i 0 q he later s with hd | ⟨k', hk⟩
      · exact .of_done (hd ▸ hstep)
      · exact .of_step (hk ▸ hstep) (reachesDone_busy i s hlater k')

/-- Settles O44: the undisturbed step is the completed command, which the held run reaches. -/
theorem heldCommandReachesTheSameState : Obligations.HeldCommandReachesTheSameState := by
  intro s t i events hs hf hevents ht
  have hheld (evs : List EnvEvent) : { s with env := evs } = heldAt i 0 .idle evs s := by rw [← hs]; rfl
  have hdone : t = doneWith i [] s := by
    rw [hheld, step_of_command (.inl rfl) ((fetch_heldAt ..).trans hf),
      takeCommand_quiet _ _ _ _ (nextEvent_heldAt_nil i 0 .idle s), runPlan_heldAt_nil] at ht
    injection ht with ht
    exact ht.symm
  obtain ⟨n, later, hn, hrun⟩ := reachesDone_boundary hf hevents (.inl rfl)
  subst hdone
  exact ⟨n, later, hn, (hheld events).symm ▸ hrun⟩

end Sys2Proof.Machine
end

section
/-! PROOFS. The Register Channel and the stream: one frame is one register write (O5), no step writes the stream (O26), and
frames emitted twice leave `D` as emitted once (O38). -/

namespace Sys2Proof.Machine

/-- Settles O5: the address byte is the 4-bit address with zeros above it, and `D` reads as after one write. -/
theorem emitFrameIsOneRegisterWrite : Obligations.EmitFrameIsOneRegisterWrite := by
  intro a v s
  have hlow : (a.setWidth 8).toNat = a.toNat := BitVec.toNat_setWidth_of_le (by decide)
  have hhigh : (a.setWidth 8).extractLsb' 4 4 = 0#4 := by
    rw [← BitVec.toNat_inj, BitVec.extractLsb'_toNat, hlow, Nat.shiftRight_eq_zero a.toNat 4 a.isLt]
    rfl
  have hdev (b : Addr) : (emitFrame ⟨a, v⟩ s).dev.read b = if b = a then some v else s.dev.read b := by
    simp only [emitFrame_dev, Memory.read_write, eq_comm]
  exact ⟨a.setWidth 8, hlow, hhigh, rfl, hdev, rfl, rfl, rfl, rfl, rfl⟩

/-- Settles O26: whatever a step emits, it leaves the stream as it was. -/
theorem noStepChangesTheStream : Obligations.NoStepChangesTheStream := by
  intro s t h
  obtain ⟨fs, hem, -⟩ := step_emitted h
  exact hem.stream

/-- Reading through the same frames once more: an address they write reads the same last write, any other is untouched. -/
theorem lastWrite_or_imageAfter (fs : List Frame) (m : Memory) (a : Addr) :
    (lastWrite fs a).or (imageAfter fs m a) = imageAfter fs m a := by
  rw [imageAfter, ← Option.or_assoc, Option.or_self]

/-- Settles O38: both executions complete with the frames and the STATUS of the one plan of the command. -/
theorem commandsAreIdempotentOnTheDevice : Obligations.CommandsAreIdempotentOnTheDevice := by
  intro i s t u hs ht hst htu
  obtain ⟨t', hst', once⟩ := exec_completes i s hs
  obtain ⟨u', htu', twice⟩ := exec_completes i t ht
  obtain rfl : t = t' := Host.Outcome.next.inj (hst.symm.trans hst')
  obtain rfl : u = u' := Host.Outcome.next.inj (htu.symm.trans htu')
  refine ⟨fun a => ?_, twice.status.trans once.status.symm, _, once.trace, twice.trace⟩
  rw [twice.dev, imageAfter, once.dev, lastWrite_or_imageAfter]

end Sys2Proof.Machine
end

section
/-! PROOFS. Every command's frames go to its own addresses (O30): a command emits frames of its plan only, and the plans
write the digit registers or the command's own setting. -/

namespace Sys2Proof.Machine

/-! ## What `exec` emits -/

/-- Taking a command emits none but its plan's frames, wherever the step ends. -/
theorem takeCommand_emits_plan (len : Nat) (mark : Nat → Sequencer) (p : Plan) (s : State) :
    ∃ fs, Emitted fs s (takeCommand len mark p s) ∧ fs ⊆ p.frames := by
  rcases takeCommand_cases len mark p s with ⟨-, -, hw⟩ | hr
  · exact hw ▸ ⟨[], emitted_awaitPayload s, List.nil_subset _⟩
  · obtain ⟨n, hem, -⟩ := runPlan_spec len mark p 0 s
    exact hr ▸ ⟨_, hem, List.take_subset n p.frames⟩

theorem exec_emits_plan {i : Instr} {s t : State} (h : exec i s = .next t) :
    ∃ fs, Emitted fs s t ∧ fs ⊆ (planOf i).frames := by
  obtain ⟨-, rfl⟩ := exec_next h
  exact takeCommand_emits_plan ..

/-! ## Plans over the digit registers -/

/-- The digit registers 0x01 to 0x08 (R27). -/
def IsDigitAddr (a : Addr) : Prop := 1 ≤ a.toNat ∧ a.toNat ≤ 8

/-- The plan writes digit registers only. -/
def DigitsOnly (p : Plan) : Prop := ∀ f ∈ p.frames, IsDigitAddr f.addr

theorem isDigitAddr_digitFrame {i : Nat} (hi : i < 8) (v : Byte) : IsDigitAddr (digitFrame Config.params i v).addr := by
  rw [IsDigitAddr, digitFrame, digitAddr_eq, BitVec.toNat_ofNat]
  omega

theorem digitsOnly_raiseError (c : ResultCode) : DigitsOnly (raiseError c) := fun _ hf => absurd hf List.not_mem_nil

theorem digitsOnly_digitFrame {i : Nat} (hi : i < 8) (v : Byte) :
    DigitsOnly (emitThenOk [digitFrame Config.params i v]) :=
  List.forall_mem_singleton.2 (isDigitAddr_digitFrame hi v)

/-- Digits, then a sign: the shape of R92 and R102. -/
theorem digitsOnly_signedDigits {pos : Nat → Nat} {n i : Nat} (hpos : ∀ j < n, pos j < 8) (hi : i < 8) (m : Nat)
    (negative : Bool) :
    DigitsOnly (emitThenOk (digitLoop Config.params pos n 0 m ++ signFrames Config.params i negative)) := by
  refine List.forall_mem_append.2 ⟨fun f hf => ?_, ?_⟩
  · rw [digitLoop_zero, List.mem_map] at hf
    obtain ⟨j, hj, rfl⟩ := hf
    exact isDigitAddr_digitFrame (hpos j (List.mem_range.1 hj)) _
  · cases negative with
    | false => exact List.forall_mem_nil _
    | true => exact digitsOnly_digitFrame hi _

theorem digitsOnly_displayByte (row value : Byte) : DigitsOnly (planDisplayByte Config.params row value) := by
  unfold planDisplayByte
  split
  · exact digitsOnly_raiseError _
  · exact digitsOnly_digitFrame (by omega) _

theorem digitsOnly_displayBcdDigit (digit value : Byte) :
    DigitsOnly (planDisplayBcdDigit Config.params digit value) := by
  unfold planDisplayBcdDigit
  split
  · exact digitsOnly_raiseError _
  · exact digitsOnly_digitFrame (by omega) _

theorem digitsOnly_displayBcdInt (value : Int) (segments : Byte) :
    DigitsOnly (planDisplayBcdInt Config.params value segments) := by
  unfold planDisplayBcdInt
  split
  · exact digitsOnly_raiseError _
  · exact digitsOnly_signedDigits (fun j hj => show j < 8 by omega) (by decide) _ _

/-- R100: valid operands of `display_fixed` use at most the eight digits. -/
theorem segments_le_of_fixedOperandsValid {decimals segments : Nat} (h : fixedOperandsValid decimals segments = true) :
    segments ≤ 8 := by
  simp only [fixedOperandsValid, Bool.and_eq_true, decide_eq_true_eq] at h
  exact h.2

theorem fixedDigits_le (scaled : Int) (segments : Nat) : fixedDigits scaled segments ≤ segments := by
  unfold fixedDigits
  split <;> omega

theorem digitsOnly_displayFixed (scaled : Int) (decimals segments : Byte) :
    DigitsOnly (planDisplayFixed Config.params scaled decimals segments) := by
  unfold planDisplayFixed
  split
  · exact digitsOnly_raiseError _
  · next hvalid =>
    have hseg := segments_le_of_fixedOperandsValid (Bool.eq_true_of_not_eq_false hvalid)
    have hdigits := fixedDigits_le scaled segments.toNat
    split
    · exact digitsOnly_raiseError _
    · exact digitsOnly_signedDigits (fun j hj => by omega) (by omega) _ _

/-! ## The addresses of each command -/

/-- The addresses a command's frames may go to (R47). -/
def OwnAddr (i : Instr) (a : Addr) : Prop :=
  match i with
  | .displayByte _ _ | .displayVector _ _ | .displayMatrix _ | .displayBcdDigit _ _ | .displayBcdInt _ _
  | .displayFixed _ _ _ | .clear => IsDigitAddr a
  | .setDecodeMode _ => a = 0x9
  | .setIntensity _ => a = 0xA
  | .setScanLimit _ => a = 0xB
  | .setPower _ => a = 0xC
  | .setDisplayTest _ => a = 0xF
  | .init _ => 1 ≤ a.toNat ∧ a.toNat ≤ 12

/-- Every command's plan keeps to the command's own addresses. -/
theorem planOf_ownAddr (i : Instr) : ∀ f ∈ (planOf i).frames, OwnAddr i f.addr := by
  cases i with
  | displayByte row value => exact digitsOnly_displayByte row value
  | displayVector row vector => exact digitsOnly_displayByte row (packVector vector)
  | displayMatrix m => rw [planOf_displayMatrix]; simp [OwnAddr, IsDigitAddr]
  | displayBcdDigit digit value => exact digitsOnly_displayBcdDigit digit value
  | displayBcdInt value segments => exact digitsOnly_displayBcdInt value segments
  | displayFixed scaled decimals segments => exact digitsOnly_displayFixed scaled decimals segments
  | setDecodeMode | setIntensity | setScanLimit | setPower | setDisplayTest => exact List.forall_mem_singleton.2 rfl
  | clear =>
    intro f hf
    obtain ⟨i, hi, rfl⟩ := List.mem_map.1 hf
    exact isDigitAddr_digitFrame (List.mem_range.1 hi) _
  | init mode => cases mode <;> (simp only [OwnAddr]; decide)

/-- Settles O30: `exec` emits frames of the command's plan, and every frame of a step goes to a legal address. -/
theorem framesGoToTheCommandsOwnAddresses : Obligations.FramesGoToTheCommandsOwnAddresses := by
  constructor
  · intro i s t h
    obtain ⟨fs, hem, hsub⟩ := exec_emits_plan h
    refine ⟨fs, hem.trace, fun f hf => ?_⟩
    have hown := planOf_ownAddr i f (hsub hf)
    cases i <;> exact hown
  · intro s t h
    obtain ⟨fs, hem, haddrs⟩ := step_emitted h
    exact ⟨fs, hem.trace, haddrs⟩

end Sys2Proof.Machine
end

section
/-! PROOFS. Encoding and decoding are inverse to each other (O19, O20): the payload words, the integers and the header
fields of a command, there and back (R61, R64). -/

namespace Sys2Proof.Machine

/-! ## Payload words (R64) -/

theorem payloadByte_packRows (a b c d : BoolVec) (j : Nat) (hj : j < 4) :
    payloadByte (packRows a b c d) j = packVector ([a, b, c, d].getD j a) := by
  rw [payloadByte, packRows, extract_join4 _ _ _ _ j hj]
  match j, hj with
  | 0, _ | 1, _ | 2, _ | 3, _ => rfl

theorem unpackMatrix_packRows (m : BoolMatrix) :
    unpackMatrix (packRows m.m0 m.m1 m.m2 m.m3) (packRows m.m4 m.m5 m.m6 m.m7) = m := by
  simp [unpackMatrix, payloadByte_packRows]

/-- A payload word is its four row bytes packed again. -/
theorem packRows_payloadByte (p : Word) :
    packRows (unpackVector (payloadByte p 0)) (unpackVector (payloadByte p 1)) (unpackVector (payloadByte p 2))
      (unpackVector (payloadByte p 3)) = p := by
  simp only [packRows, packVector_unpackVector]
  exact join4_extract p

theorem toInt_ofInt_of_fitsInt32 {v : Int} (hv : fitsInt32 v = true) : (BitVec.ofInt 32 v).toInt = v := by
  simp only [fitsInt32, Bool.and_eq_true, decide_eq_true_eq] at hv
  obtain ⟨hlo, hhi⟩ := hv
  exact BitVec.toInt_ofInt_eq_self (by decide) hlo (by omega)

theorem fitsInt32_toInt (w : Word) : fitsInt32 w.toInt = true := by
  have hlo : -2147483648 ≤ w.toInt := BitVec.le_toInt w
  have hhi : w.toInt < 2147483648 := BitVec.toInt_lt
  simp only [fitsInt32, Bool.and_eq_true, decide_eq_true_eq]
  omega

/-! ## Decoding what was encoded -/

theorem length_encode (i : Instr) : (encode i).length = commandLength i := by
  cases i <;> rfl

/-- The fields and the payload of a well-formed command meet R65's constraints and build that command. -/
theorem buildInstr_encode {i : Instr} (hw : i.wellFormed = true) :
    buildInstr (opcodeOfInstr i) (encodeA i) (encodeB i) (encodePayload i) = some i := by
  cases i with
  | displayByte | displayBcdDigit | setDecodeMode | setIntensity | setScanLimit | clear => rfl
  | displayVector => simp [buildInstr, opcodeOfInstr, encodeA, encodeB]
  | displayMatrix m => simp [buildInstr, opcodeOfInstr, encodeA, encodeB, encodePayload, unpackMatrix_packRows]
  | displayBcdInt v | displayFixed v =>
    have hv : (BitVec.ofInt 32 v).toInt = v := toInt_ofInt_of_fitsInt32 hw
    simp [buildInstr, opcodeOfInstr, encodeA, encodeB, encodePayload, hv]
  | setPower | setDisplayTest | init => simp [buildInstr, opcodeOfInstr, encodeA, encodeB]

theorem decode_encode {i : Instr} (hw : i.wellFormed = true) : decode (encode i) = .command i := by
  have hlen : (encodePayload i).length + 1 = commandLength i := length_encode i
  refine decode_of_buildInstr (o := opcodeOfInstr i) ?_ (by simp) (by simp) (by simpa using buildInstr_encode hw)
  rw [headerOpc_headerWord, hlen, commandLength]

/-- Settles O19: a command decodes from its own words, and the words behind them do not matter. -/
theorem decodeOfEncodeIsTheCommand : Obligations.DecodeOfEncodeIsTheCommand :=
  fun _ later hw => decode_append (decode_encode hw) later

/-! ## Encoding what was decoded -/

/-- The header fields a command is built from are its own: R65's constraints leave no second encoding. -/
theorem encodeFields_of_buildInstr {o : Opcode} {a b : Byte} {payload : List Word} {i : Instr}
    (h : buildInstr o a b payload = some i) : encodeA i = a ∧ encodeB i = b := by
  cases o <;> simp only [buildInstr] at h
  case displayByte | displayBcdDigit | displayFixed => cases h; exact ⟨rfl, rfl⟩
  case displayVector => cases h; exact ⟨rfl, packVector_unpackVector b⟩
  case displayMatrix | clear =>
    split at h <;> cases h
    next hab => exact ⟨hab.1.symm, hab.2.symm⟩
  case displayBcdInt =>
    split at h <;> cases h
    next hb => exact ⟨rfl, hb.symm⟩
  case setDecodeMode | setIntensity | setScanLimit =>
    split at h <;> cases h
    next ha => exact ⟨ha.symm, rfl⟩
  case setPower | setDisplayTest =>
    split at h
    · next ha =>
      obtain ⟨on, hon, rfl⟩ := Option.map_eq_some_iff.1 h
      exact ⟨ha.symm, encodeBool_of_boolOperand hon⟩
    · cases h
  case init =>
    split at h
    · next hb =>
      obtain ⟨mode, hmode, rfl⟩ := Option.map_eq_some_iff.1 h
      exact ⟨encodeMode_of_modeOperand hmode, hb.symm⟩
    · cases h

/-- The payload words a command is built from are its own, and an integer read from one fits it (R64). -/
theorem encodePayload_of_buildInstr {i : Instr} {a b : Byte} {payload : List Word}
    (h : buildInstr (opcodeOfInstr i) a b payload = some i) (hlen : commandLength i ≤ payload.length + 1) :
    i.wellFormed = true ∧ encodePayload i = payload.take (commandLength i - 1) := by
  cases i with
  | displayMatrix m =>
    match payload, hlen with
    | p0 :: p1 :: _, _ =>
      obtain ⟨-, rfl⟩ : (a = 0#8 ∧ b = 0#8) ∧ unpackMatrix p0 p1 = m := by simpa [buildInstr, opcodeOfInstr] using h
      exact ⟨rfl, by simp [encodePayload, unpackMatrix, packRows_payloadByte]⟩
  | displayBcdInt value segments =>
    match payload, hlen with
    | p :: _, _ =>
      obtain ⟨-, rfl, -⟩ : b = 0#8 ∧ p.toInt = value ∧ a = segments := by simpa [buildInstr, opcodeOfInstr] using h
      exact ⟨fitsInt32_toInt p, by simp [encodePayload]⟩
  | displayFixed scaled decimals segments =>
    match payload, hlen with
    | p :: _, _ =>
      obtain ⟨rfl, -⟩ : p.toInt = scaled ∧ b = decimals ∧ a = segments := by simpa [buildInstr, opcodeOfInstr] using h
      exact ⟨fitsInt32_toInt p, by simp [encodePayload]⟩
  | displayByte | displayVector | displayBcdDigit | setDecodeMode | setIntensity | setScanLimit | setPower
  | setDisplayTest | clear | init => exact ⟨rfl, rfl⟩

theorem encode_of_decode {ws : List Word} {i : Instr} (hd : decode ws = .command i) :
    i.wellFormed = true ∧ encode i = ws.take (commandLength i) := by
  cases ws with
  | nil => cases hd
  | cons h payload =>
    obtain ⟨ho, hr, hbuild, -, hle⟩ := decode_command hd
    obtain ⟨ha, hb⟩ := encodeFields_of_buildInstr hbuild
    obtain ⟨hw, hpayload⟩ := encodePayload_of_buildInstr hbuild hle
    have hpos : 0 < commandLength i := lengthOfOpc_pos _
    refine ⟨hw, ?_⟩
    rw [encode, opcodeCode_of_opcodeOf ho, ha, hb, ← hr, headerWord_fields, hpayload, List.take_cons hpos]

/-- Settles O20: header and payload are each the command's own, so the command's words are those it was read from. -/
theorem encodeOfDecodeIsTheWords : Obligations.EncodeOfDecodeIsTheWords := by
  intro ws i hd
  obtain ⟨hw, hwords⟩ := encode_of_decode hd
  exact ⟨hw, hwords, length_encode i⟩

end Sys2Proof.Machine
end

section
/-! PROOFS. What a header alone decides: the length of a command (O17) and whether it is ILLEGAL (O18), from the ranges
R63 leaves open and the constraints of R62 and R65. -/

namespace Sys2Proof.Machine

/-! ## R66's three items -/

/-- R66 item 1: the ranges of operation codes R63 leaves open. -/
theorem opcodeOf_eq_none_iff (opc : Byte) : opcodeOf opc = none ↔
    opc.toNat = 0x00 ∨ (0x07 ≤ opc.toNat ∧ opc.toNat ≤ 0x0F) ∨ (0x15 ≤ opc.toNat ∧ opc.toNat ≤ 0x17) ∨
      0x1A ≤ opc.toNat := by
  revert opc
  decide

theorem boolOperand_eq_none_iff (b : Byte) : boolOperand b = none ↔ 1 < b.toNat := by
  revert b
  decide

theorem modeOperand_eq_none_iff (a : Byte) : modeOperand a = none ↔ 2 < a.toNat := by
  revert a
  decide

/-- R66 item 3: field A or B is outside the constraint R65 puts on it for this operation code. -/
def OperandsOutside (opc a b : Nat) : Prop :=
  ((opc = 0x03 ∨ opc = 0x18) ∧ (a ≠ 0 ∨ b ≠ 0)) ∨ (opc = 0x05 ∧ b ≠ 0) ∨
    ((opc = 0x10 ∨ opc = 0x11 ∨ opc = 0x12) ∧ a ≠ 0) ∨ ((opc = 0x13 ∨ opc = 0x14) ∧ (a ≠ 0 ∨ 1 < b)) ∨
    (opc = 0x19 ∧ (2 < a ∨ b ≠ 0))

theorem buildInstr_eq_none_iff (o : Opcode) (a b : Byte) (payload : List Word) :
    buildInstr o a b payload = none ↔ OperandsOutside (opcodeCode o).toNat a.toNat b.toNat := by
  have ha : a.toNat = 0 ↔ a = 0#8 := BitVec.toNat_inj (y := 0#8)
  have hb : b.toNat = 0 ↔ b = 0#8 := BitVec.toNat_inj (y := 0#8)
  cases o with
  | displayByte | displayVector | displayBcdDigit | displayFixed => simp [buildInstr, opcodeCode, OperandsOutside]
  | displayMatrix | clear => simp [buildInstr, opcodeCode, OperandsOutside, ha, hb, imp_iff_not_or]
  | displayBcdInt => simp [buildInstr, opcodeCode, OperandsOutside, hb]
  | setDecodeMode | setIntensity | setScanLimit => simp [buildInstr, opcodeCode, OperandsOutside, ha]
  | setPower | setDisplayTest =>
    simp [buildInstr, opcodeCode, OperandsOutside, ha, boolOperand_eq_none_iff, imp_iff_not_or]
  | init => simp [buildInstr, opcodeCode, OperandsOutside, hb, modeOperand_eq_none_iff, imp_iff_not_or, or_comm]

/-- One of R66's items holds of the header. -/
def IllegalHeader (h : Word) : Prop :=
  opcodeOf (headerOpc h) = none ∨ headerR h ≠ 0#8 ∨
    OperandsOutside (headerOpc h).toNat (headerA h).toNat (headerB h).toNat

/-! ## Decoding by the header -/

theorem decode_of_missing_payload {h : Word} {payload : List Word}
    (hlen : payload.length + 1 < lengthOfOpc (headerOpc h)) :
    decode (h :: payload) = .incomplete (lengthOfOpc (headerOpc h)) := by
  simp [decode, hlen]

theorem decode_eq_decodeComplete {h : Word} {payload : List Word}
    (hlen : lengthOfOpc (headerOpc h) ≤ payload.length + 1) : decode (h :: payload) = decodeComplete h payload := by
  simp [decode, Nat.not_lt.2 hlen]

/-- R66: with all its words there, a header is ILLEGAL or a command, by R66's items alone. -/
theorem decode_complete_cases {h : Word} {payload : List Word}
    (hlen : lengthOfOpc (headerOpc h) ≤ payload.length + 1) :
    (IllegalHeader h ∧ ∃ why, decode (h :: payload) = .illegal why (lengthOfOpc (headerOpc h))) ∨
      (¬ IllegalHeader h ∧ ∃ i, decode (h :: payload) = .command i) := by
  rw [decode_eq_decodeComplete hlen]
  cases ho : opcodeOf (headerOpc h) with
  | none => exact .inl ⟨.inl ho, .unassignedOpcode, by simp only [decodeComplete, ho]⟩
  | some o =>
    by_cases hr : headerR h = 0#8
    · have hiff := buildInstr_eq_none_iff o (headerA h) (headerB h) payload
      rw [opcodeCode_of_opcodeOf ho] at hiff
      cases hb : buildInstr o (headerA h) (headerB h) payload with
      | none => exact .inl ⟨.inr (.inr (hiff.1 hb)), .operandConstraint, by simp [decodeComplete, ho, hr, hb]⟩
      | some i =>
        have hin : ¬ OperandsOutside (headerOpc h).toNat (headerA h).toNat (headerB h).toNat := by simp [← hiff, hb]
        exact .inr ⟨by simp [IllegalHeader, ho, hr, hin], i, by simp [decodeComplete, ho, hr, hb]⟩
    · exact .inl ⟨.inr (.inl hr), .reservedNotZero, by simp [decodeComplete, ho, hr]⟩

/-! ## The statements -/

/-- Settles O17: the length is `lengthOfOpc` of the header's OPC. -/
theorem lengthFromOpcodeAlone : Obligations.LengthFromOpcodeAlone := by
  intro h payload
  refine ⟨lengthOfOpc (headerOpc h), fun h3 => by rw [h3]; rfl, ?_,
    fun h3 h5 h6 => (if_neg h3).trans ((if_neg h5).trans (if_neg h6)), fun hlen => ?_, fun hlen => ?_⟩
  · rintro (h5 | h6)
    · rw [h5]; rfl
    · rw [h6]; rfl
  · exact decode_of_missing_payload (by omega)
  · have hcomplete : lengthOfOpc (headerOpc h) ≤ payload.length + 1 := by omega
    obtain ⟨-, hd⟩ | ⟨-, i, hd⟩ := decode_complete_cases hcomplete
    · exact .inr hd
    · obtain ⟨-, -, -, hl, -⟩ := decode_command hd
      exact .inl ⟨i, hd, hl⟩

/-- An ILLEGAL header in an undisturbed state completes with no frame and STATUS 0x0004 (R66). -/
theorem step_completes_of_illegal {s : State} {why : IllegalReason} {len : Nat} (hs : Undisturbed s)
    (hf : fetch s = .illegal why len) : ∃ t, step s = .next t ∧ Completed len [] 0x0004 s t := by
  obtain ⟨hidle, hquiet⟩ := hs
  refine ⟨runIllegal len s, by simp only [step, hidle, hf], ?_⟩
  rw [runIllegal, takeCommand_quiet _ _ _ s hquiet]
  exact runPlan_completed len _ (raiseError .illegal) s hquiet

/-- Settles O18: the statement's condition is R66's three items, written out. -/
theorem illegalHeadersAreExactlyThese : Obligations.IllegalHeadersAreExactlyThese := by
  intro s h payload hs hdrop hlen opc a b
  have hcases := decode_complete_cases hlen
  simp only [IllegalHeader, opcodeOf_eq_none_iff, OperandsOutside, or_assoc] at hcases
  obtain ⟨hbad, why, hd⟩ | ⟨hgood, hcommand⟩ := hcases
  · exact (if_pos hbad).mpr (step_completes_of_illegal hs (by rw [fetch, hdrop, hd]))
  · exact (if_neg hgood).mpr hcommand
end Sys2Proof.Machine
end

section
/-! PROOFS. The assembler's table (O22) and words spelled out by hand (O21): what each operand form reads, the command of
each line, and the words of that command (R69). -/

namespace Sys2Proof.Machine

/-! ## Operands (R69) -/

theorem asmByte_number (b : Byte) : asmByte (.number b.toNat) = some b := by
  have hrange : (0 : Int) ≤ b.toNat ∧ (b.toNat : Int) ≤ 255 := by
    have hlt : b.toNat < 256 := b.isLt
    omega
  simp [asmByte, asmValue, hrange]

/-- R29: every symbol's value fits the 8-bit field. -/
theorem asmByte_symbol (sym : AsmSymbol) : asmByte (.symbol sym) = some (BitVec.ofInt 8 (asmSymbolValue sym)) := by
  cases sym <;> rfl

theorem asmInt32_number {v : Int} (hv : fitsInt32 v = true) : asmInt32 (.number v) = some v := if_pos hv

theorem asmInt32_symbol (sym : AsmSymbol) : asmInt32 (.symbol sym) = some (asmSymbolValue sym) := by
  cases sym <;> rfl

theorem asmScaled_symbol {decimals : Byte} {sym : AsmSymbol}
    (hv : fitsInt32 (asmSymbolValue sym * 10 ^ decimals.toNat) = true) :
    asmScaled decimals (.symbol sym) = some (asmSymbolValue sym * 10 ^ decimals.toNat) :=
  asmInt32_number hv

/-- A decimal number `num / den` is read as the integer `scaled` it is `10^-decimals` times. -/
theorem asmScaled_decimal {num scaled : Int} {den : Nat} {decimals : Byte} (hden : den ≠ 0)
    (hscaled : num * 10 ^ decimals.toNat = scaled * den) (hv : fitsInt32 scaled = true) :
    asmScaled decimals (.decimal num den) = some scaled := by
  have hquot : scaled * den / (den : Int) = scaled := Int.mul_ediv_cancel _ (by omega)
  simp [asmScaled, hscaled, hquot, hden, hv]

theorem asmVector_bits (v : BoolVec) :
    asmVector (.list [v.v0.toNat, v.v1.toNat, v.v2.toNat, v.v3.toNat, v.v4.toNat, v.v5.toNat, v.v6.toNat, v.v7.toNat])
      = some v := by
  have hzero (x : Bool) : ((x.toNat : Int) == 0) = !x := by cases x <;> rfl
  have hone (x : Bool) : ((x.toNat : Int) == 1) = x := by cases x <;> rfl
  simp [asmVector, hzero, hone]

theorem asmMatrix_bytes (r0 r1 r2 r3 r4 r5 r6 r7 : Byte) :
    asmMatrix (.list [r0.toNat, r1.toNat, r2.toNat, r3.toNat, r4.toNat, r5.toNat, r6.toNat, r7.toNat])
      = some ⟨unpackVector r0, unpackVector r1, unpackVector r2, unpackVector r3, unpackVector r4, unpackVector r5,
          unpackVector r6, unpackVector r7⟩ := by
  have hbyte (b : Byte) : (b.toNat : Int) ≤ 255 := by
    have hlt : b.toNat < 256 := b.isLt
    omega
  simp [asmMatrix, hbyte]

/-! ## The lines with value operands: from what the operands read to the command -/

section
variable {x y z : AsmOperand} {a b : Byte}

theorem assemble_displayByte (hx : asmByte x = some a) (hy : asmByte y = some b) :
    assemble .displayByte [x, y] = some (.displayByte a b) := by
  unfold assemble
  simp [hx, hy]

theorem assemble_displayVector {v : BoolVec} (hx : asmByte x = some a) (hy : asmVector y = some v) :
    assemble .displayVector [x, y] = some (.displayVector a v) := by
  unfold assemble
  simp [hx, hy]

theorem assemble_displayMatrix {m : BoolMatrix} (hx : asmMatrix x = some m) :
    assemble .displayMatrix [x] = some (.displayMatrix m) := by
  unfold assemble
  simp [hx]

theorem assemble_displayBcdDigit (hx : asmByte x = some a) (hy : asmByte y = some b) :
    assemble .displayBcdDigit [x, y] = some (.displayBcdDigit a b) := by
  unfold assemble
  simp [hx, hy]

theorem assemble_displayBcdInt {v : Int} (hx : asmInt32 x = some v) (hy : asmByte y = some a) :
    assemble .displayBcdInt [x, y] = some (.displayBcdInt v a) := by
  unfold assemble
  simp [hx, hy]

theorem assemble_displayFixed {v : Int} (hx : asmScaled b x = some v) (hy : asmByte y = some b)
    (hz : asmByte z = some a) : assemble .displayFixed [x, y, z] = some (.displayFixed v b a) := by
  unfold assemble
  simp [hx, hy, hz]

theorem assemble_setDecodeMode (hx : asmByte x = some b) :
    assemble .setDecodeMode [x] = some (.setDecodeMode b) := by
  unfold assemble
  simp [hx]

theorem assemble_setIntensity (hx : asmByte x = some b) : assemble .setIntensity [x] = some (.setIntensity b) := by
  unfold assemble
  simp [hx]

theorem assemble_setScanLimit (hx : asmByte x = some b) : assemble .setScanLimit [x] = some (.setScanLimit b) := by
  unfold assemble
  simp [hx]

end

/-! ## The words of an assembled line -/

/-- A line that assembles to a command encodes to that command's words. -/
theorem map_encode_of_assemble {o : Opcode} {operands : List AsmOperand} {i : Instr} {ws : List Word}
    (h : assemble o operands = some i) (hws : encode i = ws) : (assemble o operands).map encode = some ws := by
  rw [h, Option.map_some, hws]

/-- R64: the matrix of eight row bytes is encoded with the lowest row in the least significant byte. -/
theorem encode_displayMatrix_bytes (r0 r1 r2 r3 r4 r5 r6 r7 : Byte) :
    encode (.displayMatrix ⟨unpackVector r0, unpackVector r1, unpackVector r2, unpackVector r3, unpackVector r4,
      unpackVector r5, unpackVector r6, unpackVector r7⟩)
      = [0x03000000, headerWord r3 r2 r1 r0, headerWord r7 r6 r5 r4] := by
  have hheader : headerWord (opcodeCode .displayMatrix) 0 0 0#8 = 0x03000000 := by decide
  simp only [encode, opcodeOfInstr, encodeA, encodeB, hheader, encodePayload, packRows, packVector_unpackVector]
  rfl

/-! ## The statements -/

/-- Settles O22: the line's command, then the command's words; the lines without value operands evaluate. -/
theorem assemblerTable : Obligations.AssemblerTable := by
  refine ⟨fun row value => ⟨?_, ?_⟩, fun row v => ?_, fun r0 r1 r2 r3 r4 r5 r6 r7 => ?_, fun value segments hv => ?_,
    fun num scaled den decimals segments hden hscaled hv => ?_, fun byte => ⟨?_, ?_, ?_⟩, by decide, by decide,
    by decide, by decide, by decide, by decide, by decide, by decide, fun digit sv hsv => ?_, rfl, rfl, rfl, rfl, rfl,
    fun sym decimals segments hv => ?_, fun sym segments => ?_⟩
  · exact map_encode_of_assemble (assemble_displayByte (asmByte_number row) (asmByte_number value)) rfl
  · exact map_encode_of_assemble (assemble_displayBcdDigit (asmByte_number row) (asmByte_number value)) rfl
  · exact map_encode_of_assemble (assemble_displayVector (asmByte_number row) (asmVector_bits v)) rfl
  · exact map_encode_of_assemble (assemble_displayMatrix (asmMatrix_bytes r0 r1 r2 r3 r4 r5 r6 r7))
      (encode_displayMatrix_bytes r0 r1 r2 r3 r4 r5 r6 r7)
  · exact map_encode_of_assemble (assemble_displayBcdInt (asmInt32_number hv) (asmByte_number segments)) rfl
  · exact map_encode_of_assemble (assemble_displayFixed (asmScaled_decimal hden hscaled hv) (asmByte_number decimals)
      (asmByte_number segments)) rfl
  · exact map_encode_of_assemble (assemble_setDecodeMode (asmByte_number byte)) rfl
  · exact map_encode_of_assemble (assemble_setIntensity (asmByte_number byte)) rfl
  · exact map_encode_of_assemble (assemble_setScanLimit (asmByte_number byte)) rfl
  · have hvalue : BitVec.ofInt 8 (asmSymbolValue sv.1) = sv.2 := by
      revert sv
      decide
    exact map_encode_of_assemble
      (assemble_displayBcdDigit (asmByte_number digit) (hvalue ▸ asmByte_symbol sv.1)) rfl
  · exact assemble_displayFixed (asmScaled_symbol hv) (asmByte_number decimals) (asmByte_number segments)
  · exact assemble_displayBcdInt (asmInt32_symbol sym) (asmByte_number segments)

/-- Settles O21: each of the ten word lists is decoded by evaluation. -/
theorem spelledWordsDecode : Obligations.SpelledWordsDecode := by
  unfold Obligations.SpelledWordsDecode
  decide

end Sys2Proof.Machine
end

section
/-! PROOFS. The raw display commands: one byte (O6), one vector (O7) and the whole matrix (O8), each completing with the
frames and the result of its plan (R80 to R82). -/

namespace Sys2Proof.Machine

/-! ## From a plan to the completed command -/

section
variable {i : Instr} {s : State} (hs : Undisturbed s)
include hs

/-- A command that only emits completes with its frames and STATUS 0x0000 (R138). -/
theorem completes_of_emitThenOk {fs : List Frame} (hp : planOf i = emitThenOk fs) :
    Completes i (commandLength i) fs 0x0000 s := by
  simpa [hp] using exec_completes i s hs

/-- A command that raises an error completes with no frame (R136, R138). -/
theorem completes_of_raiseError {c : ResultCode} (hp : planOf i = raiseError c) :
    Completes i (commandLength i) [] (packStatus c 0) s := by
  simpa [hp] using exec_completes i s hs

/-- A command with R80's plan writes a row of the display at `row + 1`. -/
theorem completes_of_row_le {row value : Byte} (hp : planOf i = planDisplayByte Config.params row value)
    (hrow : row.toNat ≤ 7) :
    Completes i (commandLength i) [⟨BitVec.ofNat 4 (row.toNat + 1), value⟩] 0x0000 s := by
  have hplan : planOf i = emitThenOk [digitFrame Config.params row.toNat value] := hp.trans (if_neg (by omega))
  simpa [digitFrame] using completes_of_emitThenOk hs hplan

/-- A command with R80's plan and a row the display does not have writes nothing. -/
theorem completes_of_row_gt {row value : Byte} (hp : planOf i = planDisplayByte Config.params row value)
    (hrow : 7 < row.toNat) : Completes i (commandLength i) [] 0x0001 s := by
  have hplan : planOf i = raiseError .outOfRange := hp.trans (if_pos hrow)
  simpa using completes_of_raiseError hs hplan

end

/-! ## Packing (R64, R81) -/

/-- R81: `Σ v_i · 2^i` fits a byte, so packing loses nothing. -/
theorem packVector_toNat (v : BoolVec) : (packVector v).toNat =
    v.v0.toNat + v.v1.toNat * 2 + v.v2.toNat * 2 ^ 2 + v.v3.toNat * 2 ^ 3 + v.v4.toNat * 2 ^ 4
      + v.v5.toNat * 2 ^ 5 + v.v6.toNat * 2 ^ 6 + v.v7.toNat * 2 ^ 7 := by
  have hlt : v.v0.toNat + v.v1.toNat * 2 + v.v2.toNat * 4 + v.v3.toNat * 8 + v.v4.toNat * 16
      + v.v5.toNat * 32 + v.v6.toNat * 64 + v.v7.toNat * 128 < 2 ^ 8 := by
    linarith only [v.v0.toNat_le, v.v1.toNat_le, v.v2.toNat_le, v.v3.toNat_le, v.v4.toNat_le, v.v5.toNat_le,
      v.v6.toNat_le, v.v7.toNat_le]
  exact Nat.mod_eq_of_lt hlt

/-- R64: the rows of a matrix as the bytes of its two payload words. -/
theorem encode_displayMatrix (m : BoolMatrix) : encode (.displayMatrix m) =
    [0x03000000, headerWord (packVector m.m3) (packVector m.m2) (packVector m.m1) (packVector m.m0),
      headerWord (packVector m.m7) (packVector m.m6) (packVector m.m5) (packVector m.m4)] := by
  simpa only [unpackVector_packVector] using
    encode_displayMatrix_bytes (packVector m.m0) (packVector m.m1) (packVector m.m2) (packVector m.m3)
      (packVector m.m4) (packVector m.m5) (packVector m.m6) (packVector m.m7)

/-! ## The statements -/

/-- Settles O6: the plan is R80's own, by the row. -/
theorem displayByteResult : Obligations.DisplayByteResult := fun _ _ _ =>
  ⟨rfl, fun hs => completes_of_row_le hs rfl, fun hs => completes_of_row_gt hs rfl⟩

/-- Settles O7: the byte is the packed vector, and the plan is R80's on that byte. -/
theorem displayVectorResult : Obligations.DisplayVectorResult := fun _ v _ =>
  ⟨packVector v, packVector_toNat v, rfl, fun hs => completes_of_row_le hs rfl, fun hs => completes_of_row_gt hs rfl⟩

/-- Settles O8: no row fails, so the plan emits the eight row frames. -/
theorem displayMatrixResult : Obligations.DisplayMatrixResult := fun m _ =>
  ⟨encode_displayMatrix m, fun hs => completes_of_emitThenOk hs (planOf_displayMatrix m)⟩

end Sys2Proof.Machine
end

section
/-! PROOFS. The BCD commands: one digit (O9), and the integer with its frames (O10), what `D` then holds (O11), and the
round trips in both digit orders (O40, O41), from what the frames write last to each digit register (R92 to R95). -/

namespace Sys2Proof.Machine

/-! ## One digit (R90) -/

/-- Settles O9: the plan is R90's own, by the range check. -/
theorem displayBcdDigitResult : Obligations.DisplayBcdDigitResult := by
  refine fun digit value s => ⟨rfl, fun hs hin => ?_, fun hs hout => ?_⟩
  · have hplan : planOf (.displayBcdDigit digit value) = emitThenOk [digitFrame Config.params digit.toNat value] :=
      if_neg (by omega)
    simpa [digitFrame] using completes_of_emitThenOk hs hplan
  · have hplan : planOf (.displayBcdDigit digit value) = raiseError .outOfRange := if_pos hout
    simpa using completes_of_raiseError hs hplan

/-! ## The frames of `display_bcd_int` (R92, R93) -/

/-- The frame of `dec(|V|, i)`, at the place `order` gives it among `n` digits (R92, R93). -/
def bcdIntDigit (order : BcdIntOrder) (value : Int) (n i : Nat) : Frame :=
  ⟨BitVec.ofNat 4 (bcdPos order n i + 1), BitVec.ofNat 8 (value.natAbs / 10 ^ i % 10)⟩

/-- The digits' frames, then MINUS over digit 0 (R92, R93). -/
def bcdIntFrames (order : BcdIntOrder) (value : Int) (n : Nat) : List Frame :=
  (List.range n).map (bcdIntDigit order value n) ++ if value < 0 then [⟨0x1, 0x0A⟩] else []

theorem planDisplayBcdInt_eq (order : BcdIntOrder) (value : Int) {segments : Byte} (h1 : 1 ≤ segments.toNat)
    (h8 : segments.toNat ≤ 8) :
    planDisplayBcdInt { Config.params with bcdIntOrder := order } value segments =
      emitThenOk (bcdIntFrames order value segments.toNat) := by
  have hsign : signFrames { Config.params with bcdIntOrder := order } 0 (decide (value < 0)) =
      if value < 0 then [⟨0x1, 0x0A⟩] else [] := by
    simp only [signFrames, decide_eq_true_eq]
    rfl
  rw [planDisplayBcdInt, if_neg (by omega), digitLoop_zero, hsign, bcdIntFrames]
  simp only [digitFrame, digitAddr_msd]
  rfl

/-- The machine runs the normative order (R92, D8). -/
theorem completes_displayBcdInt (value : Int) {segments : Byte} {s : State} (hs : Undisturbed s)
    (h1 : 1 ≤ segments.toNat) (h8 : segments.toNat ≤ 8) :
    Completes (.displayBcdInt value segments) 2 (bcdIntFrames .lsdAt0 value segments.toNat) 0x0000 s :=
  completes_of_emitThenOk hs (planDisplayBcdInt_eq .lsdAt0 value h1 h8)

/-- Settles O10: in range the plan is the digit frames and the sign's, else an error. -/
theorem displayBcdIntResult : Obligations.DisplayBcdIntResult := by
  refine fun value segments s => ⟨rfl, fun hs ⟨h1, h8⟩ => completes_displayBcdInt value hs h1 h8, fun hs hout => ?_⟩
  have hplan : planOf (.displayBcdInt value segments) = raiseError .outOfRange := if_pos hout
  simpa using completes_of_raiseError hs hplan

/-! ## What the frames write last to a digit register -/

theorem digitAddr_toNat {i : Nat} (hi : i < 8) : (BitVec.ofNat 4 (i + 1)).toNat = i + 1 :=
  Nat.mod_eq_of_lt (by omega)

theorem digitAddr_injective {i j : Nat} (hi : i < 8) (hj : j < 8) (h : BitVec.ofNat 4 (i + 1) = BitVec.ofNat 4 (j + 1)) :
    i = j := by
  have := congrArg BitVec.toNat h
  rw [digitAddr_toNat hi, digitAddr_toNat hj] at this
  omega

theorem bcdPos_lt (order : BcdIntOrder) {n i : Nat} (hi : i < n) : bcdPos order n i < n := by
  cases order <;> simp only [bcdPos] <;> omega

theorem bcdPos_injective (order : BcdIntOrder) {n i j : Nat} (hi : i < n) (hj : j < n)
    (h : bcdPos order n i = bcdPos order n j) : i = j := by
  cases order <;> simp only [bcdPos] at h <;> omega

/-- The last of a sequence of frames to its address is the last write there. -/
theorem lastWrite_map_range (g : Nat → Frame) {n j : Nat} (hj : j < n)
    (hlast : ∀ k, j < k → k < n → (g k).addr ≠ (g j).addr) :
    lastWrite ((List.range n).map g) (g j).addr = some (g j).value := by
  induction n with
  | zero => omega
  | succ n ih =>
    rw [List.range_succ, List.map_append, lastWrite_append]
    rcases Nat.lt_succ_iff_lt_or_eq.1 hj with hlt | rfl
    · simp [lastWrite, hlast n hlt (by omega), ih hlt fun k hjk hkn => hlast k hjk (by omega)]
    · simp [lastWrite]

/-- A digit's register keeps the digit unless MINUS goes over it (R92). -/
theorem lastWrite_bcdIntFrames (order : BcdIntOrder) (value : Int) {n i : Nat} (hn : n ≤ 8) (hi : i < n)
    (hsign : value < 0 → bcdPos order n i ≠ 0) :
    lastWrite (bcdIntFrames order value n) (bcdIntDigit order value n i).addr =
      some (bcdIntDigit order value n i).value := by
  have hpos {k : Nat} (hk : k < n) : bcdPos order n k < 8 := (bcdPos_lt order hk).trans_le hn
  have hdigit := lastWrite_map_range (bcdIntDigit order value n) hi fun k hik hk heq =>
    hik.ne' (bcdPos_injective order hk hi (digitAddr_injective (hpos hk) (hpos hi) heq))
  rw [bcdIntFrames, lastWrite_append, hdigit]
  split
  · next hneg =>
    have hne : 1#4 ≠ (bcdIntDigit order value n i).addr := fun heq =>
      hsign hneg (digitAddr_injective (by decide) (hpos hi) heq).symm
    simp [lastWrite, hne]
  · rfl

/-- MINUS is the last frame to digit 0 (R92). -/
theorem lastWrite_bcdIntFrames_minus (order : BcdIntOrder) {value : Int} (hneg : value < 0) (n : Nat) :
    lastWrite (bcdIntFrames order value n) 0x1 = some 0x0A := by
  simp [bcdIntFrames, hneg, lastWrite_append, lastWrite]

/-- No frame goes outside the `n` digits (R92, R96). -/
theorem lastWrite_bcdIntFrames_outside (order : BcdIntOrder) (value : Int) {n : Nat} (h1 : 1 ≤ n) (hn : n ≤ 8) {a : Addr}
    (ha : a = 0 ∨ n < a.toNat) : lastWrite (bcdIntFrames order value n) a = none := by
  have hout {i : Nat} (hi : i < n) : BitVec.ofNat 4 (i + 1) ≠ a := by
    rintro rfl
    have hnat := digitAddr_toNat (hi.trans_le hn)
    rcases ha with h0 | hgt
    · rw [h0] at hnat
      cases hnat
    · omega
  rw [bcdIntFrames]
  refine lastWrite_none fun f hf => ?_
  rcases List.mem_append.1 hf with hdigit | hsign
  · obtain ⟨i, hi, rfl⟩ := List.mem_map.1 hdigit
    exact hout (bcdPos_lt order (List.mem_range.1 hi))
  · split at hsign
    · obtain rfl := List.mem_singleton.1 hsign
      exact hout h1
    · cases hsign

theorem imageAfter_of_lastWrite {fs : List Frame} {a : Addr} {v : Byte} (h : lastWrite fs a = some v) (m : Memory) :
    imageAfter fs m a = some v := by
  rw [imageAfter, h, Option.some_or]

/-- Settles O11: the digit registers read what the frames wrote last there, whatever the magnitude. -/
theorem bcdIntTruncatesSilently : Obligations.BcdIntTruncatesSilently := by
  intro value segments s hs h1 h8
  obtain ⟨t, hexec, ht⟩ := completes_displayBcdInt value hs h1 h8
  refine ⟨t, hexec, ht.status, fun i hi1 hi => ?_, ?_, fun a ha => ?_⟩
  · rw [ht.dev]
    exact imageAfter_of_lastWrite (lastWrite_bcdIntFrames .lsdAt0 value h8 hi fun _ => Nat.ne_of_gt hi1) _
  · rw [ht.dev]
    refine imageAfter_of_lastWrite ?_ _
    split
    · next hneg => exact lastWrite_bcdIntFrames_minus .lsdAt0 hneg _
    · next hpos => simpa [bcdIntDigit, bcdPos] using lastWrite_bcdIntFrames .lsdAt0 value h8 h1 fun hneg => absurd hneg hpos
  · rw [ht.dev, imageAfter, lastWrite_bcdIntFrames_outside .lsdAt0 value h1 h8 ha, Option.none_or]

/-! ## The round trips (R95) -/

/-- Reading back the digits `k` to `k + n - 1` of `m` completes `m mod 10^k` to `m mod 10^(k + n)`. -/
theorem digitsValue_add_mod {read : Addr → Option Byte} {m k n : Nat}
    (hread : ∀ i, k ≤ i → i < k + n → read (BitVec.ofNat 4 (i + 1)) = some (BitVec.ofNat 8 (m / 10 ^ i % 10))) :
    digitsValue read k n + m % 10 ^ k = m % 10 ^ (k + n) := by
  induction n generalizing k with
  | zero => simp [digitsValue]
  | succ n ih =>
    have hfirst : ((read (BitVec.ofNat 4 (k + 1))).getD 0).toNat = m / 10 ^ k % 10 := by
      rw [hread k le_rfl (by omega), Option.getD_some]
      exact dec_toNat m k
    have hlater := ih (k := k + 1) fun i hki hi => hread i (by omega) (by omega)
    rw [digitsValue, hfirst, show k + (n + 1) = k + 1 + n by omega, ← hlater, Nat.mod_pow_succ]
    ring

theorem digitsValue_eq_mod {read : Addr → Option Byte} {m n : Nat}
    (hread : ∀ i < n, read (BitVec.ofNat 4 (i + 1)) = some (BitVec.ofNat 8 (m / 10 ^ i % 10))) :
    digitsValue read 0 n = m % 10 ^ n := by
  simpa [Nat.mod_one] using digitsValue_add_mod (k := 0) (n := n) fun i _ hi => hread i (by omega)

/-- Settles O40: the digits from 0, and for a negative value from 1 (MINUS is over digit 0), read back as `|V| mod 10^s` and
as that without the ones digit. -/
theorem bcdIntRoundTrip : Obligations.BcdIntRoundTrip := by
  intro value segments s hs h1 h8
  obtain ⟨t, hexec, ht⟩ := completes_displayBcdInt value hs h1 h8
  have hread {i : Nat} (hi : i < segments.toNat) (hsign : value < 0 → i ≠ 0) :
      t.dev.read (BitVec.ofNat 4 (i + 1)) = some (BitVec.ofNat 8 (value.natAbs / 10 ^ i % 10)) := by
    rw [ht.dev]
    exact imageAfter_of_lastWrite (lastWrite_bcdIntFrames .lsdAt0 value h8 hi hsign) _
  have hmod : value.natAbs % 10 ^ segments.toNat = value.natAbs ↔ value.natAbs < 10 ^ segments.toNat :=
    Nat.mod_eq_iff_lt (by positivity)
  refine ⟨t, hexec, fun hpos => ?_, fun hneg => ?_⟩
  · have hall := digitsValue_eq_mod fun i hi => hread hi fun hneg => absurd hneg hpos.not_gt
    exact ⟨hall, hall ▸ hmod⟩
  · have htens := digitsValue_add_mod (k := 1) (n := segments.toNat - 1) fun i hi1 hi =>
      hread (by omega) fun _ => by omega
    rw [pow_one, Nat.add_sub_cancel' h1] at htens
    rw [pow_zero, Nat.div_one, ← hmod]
    have hle := Nat.mod_le value.natAbs (10 ^ segments.toNat)
    omega

/-- Settles O41: read from the top, the digit that holds `dec(|V|, i)` is the `i`-th, and only the last is under MINUS. -/
theorem msdOrderFramesAndRoundTrip : Obligations.MsdOrderFramesAndRoundTrip := by
  intro value segments h1 h8 frames fromTheTop
  have hframes : frames = bcdIntFrames .msdAt0 value segments.toNat :=
    congrArg Plan.frames (planDisplayBcdInt_eq .msdAt0 value h1 h8)
  have hread {i : Nat} (hi : i < segments.toNat) (hsign : value < 0 → segments.toNat - 1 - i ≠ 0) :
      fromTheTop (BitVec.ofNat 4 (i + 1)) = some (BitVec.ofNat 8 (value.natAbs / 10 ^ i % 10)) := by
    have haddr : segments.toNat + 1 - (BitVec.ofNat 4 (i + 1)).toNat = bcdPos .msdAt0 segments.toNat i + 1 := by
      rw [digitAddr_toNat (hi.trans_le h8), bcdPos]
      omega
    simp only [fromTheTop, hframes, haddr]
    exact imageAfter_of_lastWrite (lastWrite_bcdIntFrames .msdAt0 value h8 hi hsign) _
  refine ⟨hframes, fun hpos => ?_, fun hneg => ?_⟩
  · exact digitsValue_eq_mod fun i hi => hread hi fun hneg => absurd hneg hpos.not_gt
  · exact digitsValue_eq_mod fun i hi => hread (by omega) fun _ => by omega

end Sys2Proof.Machine
end

section
/-! PROOFS. The fixed-point command (O12), and that the three BCD commands write BCD symbols only (O31), both from the
plans of R90, R92 and R102. -/

namespace Sys2Proof.Machine

/-! ## `display_fixed` (R100 to R102) -/

/-- R100's four conditions. -/
theorem fixedOperandsValid_iff (decimals segments : Nat) : fixedOperandsValid decimals segments = true ↔
    1 ≤ decimals ∧ 2 ≤ segments ∧ decimals < segments ∧ segments ≤ 8 := by
  simp [fixedOperandsValid, and_assoc]

theorem fixedDigits_of_nonneg {scaled : Int} (h : 0 ≤ scaled) (segments : Nat) : fixedDigits scaled segments = segments :=
  if_neg h.not_gt

theorem fixedDigits_of_neg {scaled : Int} (h : scaled < 0) (segments : Nat) : fixedDigits scaled segments = segments - 1 :=
  if_pos h

/-- The frames of the `n` least significant digits of `m`, from digit index 0 up (R102). -/
def digitFrames (m n : Nat) : List Frame :=
  (List.range n).map fun i => ⟨BitVec.ofNat 4 (i + 1), BitVec.ofNat 8 (m / 10 ^ i % 10)⟩

theorem digitLoop_eq_digitFrames (n m : Nat) : digitLoop Config.params (fun i => i) n 0 m = digitFrames m n := by
  simp only [digitLoop_zero, digitFrame, digitAddr_eq, dec, digitFrames]

section
variable {scaled : Int} {decimals segments : Byte}

/-- R100 is checked first. -/
theorem planOf_displayFixed_of_invalid (h : fixedOperandsValid decimals.toNat segments.toNat = false) :
    planOf (.displayFixed scaled decimals segments) = raiseError .outOfRange :=
  if_pos h

variable (hvalid : fixedOperandsValid decimals.toNat segments.toNat = true)
include hvalid

/-- R101 is checked second: the magnitude needs more digits than it has. -/
theorem planOf_displayFixed_of_overflow (hbig : 10 ^ fixedDigits scaled segments.toNat ≤ scaled.natAbs) :
    planOf (.displayFixed scaled decimals segments) = raiseError .overflow :=
  (if_neg (by simp [hvalid])).trans (if_pos hbig)

/-- The digits, then the sign at the last digit (R102). -/
theorem planOf_displayFixed_of_inRange (hfit : scaled.natAbs < 10 ^ fixedDigits scaled segments.toNat) :
    planOf (.displayFixed scaled decimals segments) =
      emitThenOk (digitFrames scaled.natAbs (fixedDigits scaled segments.toNat)
        ++ signFrames Config.params (segments.toNat - 1) (decide (scaled < 0))) := by
  rw [← digitLoop_eq_digitFrames]
  exact (if_neg (by simp [hvalid])).trans (if_neg hfit.not_ge)

theorem planOf_displayFixed_of_nonneg (hpos : 0 ≤ scaled) (hfit : scaled.natAbs < 10 ^ segments.toNat) :
    planOf (.displayFixed scaled decimals segments) = emitThenOk (digitFrames scaled.natAbs segments.toNat) := by
  have hn := fixedDigits_of_nonneg hpos segments.toNat
  rw [planOf_displayFixed_of_inRange hvalid (by rwa [hn]), hn, decide_eq_false hpos.not_gt]
  exact congrArg emitThenOk (List.append_nil _)

theorem planOf_displayFixed_of_neg (hneg : scaled < 0) (hfit : scaled.natAbs < 10 ^ (segments.toNat - 1)) :
    planOf (.displayFixed scaled decimals segments) =
      emitThenOk (digitFrames scaled.natAbs (segments.toNat - 1) ++ [⟨BitVec.ofNat 4 segments.toNat, 0x0A⟩]) := by
  have hn := fixedDigits_of_neg hneg segments.toNat
  have htwo : 2 ≤ segments.toNat := ((fixedOperandsValid_iff _ _).1 hvalid).2.1
  have hminus : digitFrame Config.params (segments.toNat - 1) Config.params.minus =
      ⟨BitVec.ofNat 4 segments.toNat, 0x0A⟩ := by
    rw [digitFrame, digitAddr_eq, Nat.sub_add_cancel (by omega)]
    rfl
  rw [planOf_displayFixed_of_inRange hvalid (by rwa [hn]), hn, decide_eq_true hneg, ← hminus]
  rfl

end

/-- Settles O12: the plan of each branch of R102, for either sign of the value. -/
theorem displayFixedResult : Obligations.DisplayFixedResult := by
  refine fun scaled decimals segments s => ⟨rfl, fun hs => ?_⟩
  simp only [← fixedOperandsValid_iff, Bool.not_eq_true]
  split
  · next hinvalid => simpa using completes_of_raiseError hs (planOf_displayFixed_of_invalid hinvalid)
  · next hvalid =>
    rw [Bool.not_eq_false] at hvalid
    split_ifs with hpos hfit hfit
    · exact completes_of_emitThenOk hs (planOf_displayFixed_of_nonneg hvalid hpos hfit)
    · rw [← fixedDigits_of_nonneg hpos segments.toNat, not_lt] at hfit
      simpa using completes_of_raiseError hs (planOf_displayFixed_of_overflow hvalid hfit)
    · exact completes_of_emitThenOk hs (planOf_displayFixed_of_neg hvalid (not_le.1 hpos) hfit)
    · rw [← fixedDigits_of_neg (not_le.1 hpos) segments.toNat, not_lt] at hfit
      simpa using completes_of_raiseError hs (planOf_displayFixed_of_overflow hvalid hfit)

/-! ## BCD symbols only (R29, R96, R103) -/

/-- Every frame of the plan writes a BCD symbol, a value of at most 15 (R29). -/
def BcdOnly (p : Plan) : Prop := ∀ f ∈ p.frames, f.value.toNat ≤ 15

theorem bcdOnly_raiseError (c : ResultCode) : BcdOnly (raiseError c) := fun _ hf => absurd hf List.not_mem_nil

/-- Digits, then a sign, the shape of R92 and R102: a decimal digit is below 10, and MINUS is 10. -/
theorem bcdOnly_signedDigits (pos : Nat → Nat) (n m i : Nat) (negative : Bool) :
    BcdOnly (emitThenOk (digitLoop Config.params pos n 0 m ++ signFrames Config.params i negative)) := by
  refine List.forall_mem_append.2 ⟨fun f hf => ?_, ?_⟩
  · rw [digitLoop_zero, List.mem_map] at hf
    obtain ⟨j, -, rfl⟩ := hf
    have hdigit := dec_toNat m j
    have hlt := dec_lt m j
    simp only [digitFrame]
    omega
  · cases negative with
    | false => exact List.forall_mem_nil _
    | true => exact List.forall_mem_singleton.2 (show (0x0A#8).toNat ≤ 15 by decide)

/-- R90 rejects a value that is no BCD symbol. -/
theorem bcdOnly_displayBcdDigit (digit value : Byte) : BcdOnly (planDisplayBcdDigit Config.params digit value) := by
  unfold planDisplayBcdDigit
  split
  · exact bcdOnly_raiseError _
  · next hin => exact List.forall_mem_singleton.2 (show value.toNat ≤ 15 by omega)

theorem bcdOnly_displayBcdInt (value : Int) (segments : Byte) :
    BcdOnly (planDisplayBcdInt Config.params value segments) := by
  unfold planDisplayBcdInt
  split
  · exact bcdOnly_raiseError _
  · exact bcdOnly_signedDigits _ _ _ _ _

theorem bcdOnly_displayFixed (scaled : Int) (decimals segments : Byte) :
    BcdOnly (planDisplayFixed Config.params scaled decimals segments) := by
  unfold planDisplayFixed
  split
  · exact bcdOnly_raiseError _
  · split
    · exact bcdOnly_raiseError _
    · exact bcdOnly_signedDigits _ _ _ _ _

/-- Settles O31: `exec` emits frames of the command's plan only, and the three plans write BCD symbols. -/
theorem bcdCommandsWriteBcdSymbols : Obligations.BcdCommandsWriteBcdSymbols := by
  intro s t i h hbcd
  obtain ⟨fs, hem, hsub⟩ := exec_emits_plan h
  have hplan : BcdOnly (planOf i) := by
    cases i with
    | displayBcdDigit digit value => exact bcdOnly_displayBcdDigit digit value
    | displayBcdInt value segments => exact bcdOnly_displayBcdInt value segments
    | displayFixed scaled decimals segments => exact bcdOnly_displayFixed scaled decimals segments
    | _ => exact hbcd.elim
  exact ⟨fs, hem.trace, fun f hf => hplan f (hsub hf)⟩

end Sys2Proof.Machine
end

section
/-! PROOFS. The configuration commands: the settings (O13), the switches (O14), `clear` (O15) and `init` (O16), each
completing with the frames of its plan, and the operands that are ILLEGAL at decode (R110 to R116). -/

namespace Sys2Proof.Machine

/-! ## The settings and the switches (R110 to R114) -/

/-- Settles O13: each plan is the one frame of R110, R111 and R112. -/
theorem settingsPassTheirByteThrough : Obligations.SettingsPassTheirByteThrough := fun _ _ =>
  ⟨rfl, rfl, rfl, fun hs =>
    ⟨completes_of_emitThenOk hs rfl, completes_of_emitThenOk hs rfl, completes_of_emitThenOk hs rfl⟩⟩

/-- R66 item 3 for a command without payload: operands outside R65's constraints are ILLEGAL, and one word long. -/
theorem decode_illegal_of_operandsOutside {o : Opcode} {a b : Byte} (later : List Word)
    (hlen : lengthOfOpc (opcodeCode o) = 1) (hout : OperandsOutside (opcodeCode o).toNat a.toNat b.toNat) :
    decode (headerWord (opcodeCode o) a b 0x00 :: later) = .illegal .operandConstraint 1 := by
  have hbuild : buildInstr o a b later = none := (buildInstr_eq_none_iff o a b later).2 hout
  rw [decode_eq_decodeComplete (by simp [hlen])]
  simp [decodeComplete, hbuild, hlen]

/-- Settles O14: each plan is the one frame of R113 and R114, and only 0 and 1 are boolean operands (R65). -/
theorem switchesWriteAllOnesOrZeros : Obligations.SwitchesWriteAllOnesOrZeros := by
  refine ⟨fun on s hs => ⟨completes_of_emitThenOk hs rfl, completes_of_emitThenOk hs rfl⟩, fun on => ⟨rfl, rfl⟩,
    fun b later hb => ⟨?_, ?_⟩⟩
  · exact decode_illegal_of_operandsOutside (o := .setPower) later rfl (by simp [OperandsOutside, opcodeCode, hb])
  · exact decode_illegal_of_operandsOutside (o := .setDisplayTest) later rfl (by simp [OperandsOutside, opcodeCode, hb])

/-! ## `clear` and `init` (R115, R116) -/

/-- R115: the digits' registers are 0x01 to 0x08, in ascending order. -/
theorem clearFrames_eq :
    clearFrames Config.params = (List.range' 1 8).map fun k => ⟨BitVec.ofNat 4 k, 0x00⟩ := by
  simp [clearFrames, digitFrame, List.range'_eq_map_range, Function.comp_def, Nat.add_comm]

/-- R115: `clear` does what `display_matrix` does with the all-false matrix. -/
theorem planOf_displayMatrix_allFalse : planOf (.displayMatrix (unpackMatrix 0 0)) = planOf .clear := by
  rw [planOf_displayMatrix]
  rfl

/-- Settles O15: both plans emit `clearFrames`. -/
theorem clearZeroesTheEightDigits : Obligations.ClearZeroesTheEightDigits := by
  have hclear : planOf .clear = emitThenOk ((List.range' 1 8).map fun k => ⟨BitVec.ofNat 4 k, 0x00⟩) :=
    congrArg emitThenOk clearFrames_eq
  exact ⟨rfl, fun s hs =>
    ⟨completes_of_emitThenOk hs hclear, completes_of_emitThenOk hs (planOf_displayMatrix_allFalse.trans hclear)⟩⟩

/-- Settles O16: no step of `init` fails, so each mode's plan emits its frames, and only 0, 1 and 2 are modes (R65). -/
theorem initWritesItsSequence : Obligations.InitWritesItsSequence := by
  have hraw := planInit_raw Config.params
  have hbcd := planInit_bcd Config.params
  rw [clearFrames_eq] at hraw hbcd
  refine ⟨fun s hs => ⟨completes_of_emitThenOk hs rfl, completes_of_emitThenOk hs hraw, completes_of_emitThenOk hs hbcd⟩,
    rfl, rfl, rfl, fun a later ha => ?_⟩
  exact decode_illegal_of_operandsOutside (o := .init) later rfl (by simp [OperandsOutside, opcodeCode, ha])

end Sys2Proof.Machine
end

section
/-! PROOFS. The exceptions: what `Finish` writes (O4), the conditions under which a command's plan raises OUT_OF_RANGE (O33)
and OVERFLOW (O34), and that a step that ends in an error emits no frame (O32), from R130 to R138. -/

namespace Sys2Proof.Machine

/-! ## The fields of STATUS (R22) -/

@[simp] theorem statusCode_packStatus (code : ResultCode) (mask : Byte) :
    statusCode (packStatus code mask) = codeBits code :=
  BitVec.extractLsb'_append_eq_right

@[simp] theorem statusReserved_packStatus (code : ResultCode) (mask : Byte) :
    statusReserved (packStatus code mask) = 0 :=
  (BitVec.extractLsb'_append_eq_of_le (le_refl 4)).trans BitVec.extractLsb'_append_eq_right

@[simp] theorem statusStepMask_packStatus (code : ResultCode) (mask : Byte) :
    statusStepMask (packStatus code mask) = mask :=
  (BitVec.extractLsb'_append_eq_of_le (show 4 ≤ 8 by decide)).trans BitVec.extractLsb'_append_eq_left

/-- Settles O4: STATUS is packed from its three fields, and `finish` writes no other field but `WP` and the sequencer. -/
theorem finishWritesStatusAndAdvances : Obligations.FinishWritesStatusAndAdvances := fun code mask _ _ =>
  ⟨statusCode_packStatus code mask, statusReserved_packStatus code mask, statusStepMask_packStatus code mask,
    rfl, rfl, rfl, rfl, rfl, rfl, rfl⟩

/-! ## The plan of every command, by the error it raises -/

/-- R131: the operands for which a command raises OUT_OF_RANGE. -/
def RaisesOutOfRange (i : Instr) : Prop :=
  match i with
  | .displayByte row _ => 7 < row.toNat
  | .displayVector row _ => 7 < row.toNat
  | .displayBcdDigit digit value => 7 < digit.toNat ∨ 15 < value.toNat
  | .displayBcdInt _ segments => segments.toNat < 1 ∨ 8 < segments.toNat
  | .displayFixed _ decimals segments =>
    ¬ (1 ≤ decimals.toNat ∧ decimals.toNat < segments.toNat ∧ segments.toNat ≤ 8 ∧ 2 ≤ segments.toNat)
  | _ => False

/-- R132 (with R100, R101): the operands for which a command raises OVERFLOW. -/
def RaisesOverflow (i : Instr) : Prop :=
  match i with
  | .displayFixed scaled decimals segments =>
    (1 ≤ decimals.toNat ∧ decimals.toNat < segments.toNat ∧ segments.toNat ≤ 8) ∧
      ((0 ≤ scaled ∧ 10 ^ segments.toNat ≤ scaled.natAbs) ∨
        (scaled < 0 ∧ 10 ^ (segments.toNat - 1) ≤ scaled.natAbs))
  | _ => False

/-- The three plans a command can have, each with the operands that give it (R130 to R132, R136). -/
inductive PlanCase (i : Instr) : Prop where
  | outOfRange (range : RaisesOutOfRange i) (noOverflow : ¬ RaisesOverflow i) (plan : planOf i = raiseError .outOfRange)
  | overflow (inRange : ¬ RaisesOutOfRange i) (tooBig : RaisesOverflow i) (plan : planOf i = raiseError .overflow)
  | ok (inRange : ¬ RaisesOutOfRange i) (noOverflow : ¬ RaisesOverflow i) (frames : List Frame)
      (plan : planOf i = emitThenOk frames)

/-- A plan with R131's check alone in front of its frames (R80, R81, R90, R92). -/
theorem PlanCase.of_rangeCheck {i : Instr} {c : Prop} [Decidable c] {frames : List Frame}
    (hplan : planOf i = if c then raiseError .outOfRange else emitThenOk frames) (hrange : RaisesOutOfRange i ↔ c)
    (hover : ¬ RaisesOverflow i) : PlanCase i := by
  by_cases hc : c
  · exact .outOfRange (hrange.2 hc) hover (hplan.trans (if_pos hc))
  · exact .ok (mt hrange.1 hc) hover frames (hplan.trans (if_neg hc))

theorem fixedOperandsValid_iff_not_raisesOutOfRange (scaled : Int) (decimals segments : Byte) :
    fixedOperandsValid decimals.toNat segments.toNat = true ↔ ¬ RaisesOutOfRange (.displayFixed scaled decimals segments) := by
  rw [fixedOperandsValid_iff, RaisesOutOfRange]
  omega

/-- R101 for either sign: the magnitude does not fit the digits it has. -/
theorem pow_fixedDigits_le_iff (scaled : Int) (segments : Nat) : 10 ^ fixedDigits scaled segments ≤ scaled.natAbs ↔
    (0 ≤ scaled ∧ 10 ^ segments ≤ scaled.natAbs) ∨ (scaled < 0 ∧ 10 ^ (segments - 1) ≤ scaled.natAbs) := by
  rcases le_or_gt 0 scaled with hpos | hneg
  · simp [fixedDigits_of_nonneg hpos, hpos, hpos.not_gt]
  · simp [fixedDigits_of_neg hneg, hneg, hneg.not_ge]

theorem raisesOverflow_displayFixed_iff (scaled : Int) (decimals segments : Byte) :
    RaisesOverflow (.displayFixed scaled decimals segments) ↔
      fixedOperandsValid decimals.toNat segments.toNat = true ∧
        10 ^ fixedDigits scaled segments.toNat ≤ scaled.natAbs := by
  rw [fixedOperandsValid_iff, pow_fixedDigits_le_iff, RaisesOverflow]
  exact and_congr_left fun _ => by omega

/-- R102's three branches. -/
theorem planCase_displayFixed (scaled : Int) (decimals segments : Byte) :
    PlanCase (.displayFixed scaled decimals segments) := by
  have hrange := fixedOperandsValid_iff_not_raisesOutOfRange scaled decimals segments
  have hover := raisesOverflow_displayFixed_iff scaled decimals segments
  cases hvalid : fixedOperandsValid decimals.toNat segments.toNat with
  | false =>
    rw [hvalid] at hrange hover
    exact .outOfRange (by simpa using hrange) (by simp [hover]) (planOf_displayFixed_of_invalid hvalid)
  | true =>
    rcases le_or_gt (10 ^ fixedDigits scaled segments.toNat) scaled.natAbs with hbig | hfit
    · exact .overflow (hrange.1 hvalid) (hover.2 ⟨hvalid, hbig⟩) (planOf_displayFixed_of_overflow hvalid hbig)
    · exact .ok (hrange.1 hvalid) (fun h => hfit.not_ge (hover.1 h).2) _ (planOf_displayFixed_of_inRange hvalid hfit)

/-- Every command's plan is the one its operands call for. -/
theorem planOf_cases (i : Instr) : PlanCase i := by
  cases i with
  | displayByte | displayVector | displayBcdDigit | displayBcdInt => exact .of_rangeCheck rfl Iff.rfl id
  | displayFixed scaled decimals segments => exact planCase_displayFixed scaled decimals segments
  | displayMatrix m => exact .ok id id _ (planOf_displayMatrix m)
  | setDecodeMode | setIntensity | setScanLimit | setPower | setDisplayTest | clear => exact .ok id id _ rfl
  | init mode =>
    cases mode with
    | none => exact .ok id id _ rfl
    | raw => exact .ok id id _ (planInit_raw _)
    | bcd => exact .ok id id _ (planInit_bcd _)

/-! ## The result of a command -/

/-- STATUS after an undisturbed command is its plan's result (R138). -/
theorem status_of_exec {i : Instr} {s t : State} (hs : Undisturbed s) (h : exec i s = .next t) :
    t.status = packStatus (planOf i).code (planOf i).mask := by
  obtain ⟨t', ht', hdone⟩ := exec_completes i s hs
  obtain rfl : t = t' := Host.Outcome.next.inj (h.symm.trans ht')
  exact hdone.status

theorem planStatus_eq_outOfRange_iff (i : Instr) :
    packStatus (planOf i).code (planOf i).mask = 0x0001 ↔ RaisesOutOfRange i := by
  cases planOf_cases i with
  | outOfRange range _ plan => simp [plan, range]
  | overflow inRange _ plan => simp [plan, inRange]
  | ok inRange _ frames plan => simp [plan, inRange]

theorem planStatus_eq_overflow_iff (i : Instr) :
    packStatus (planOf i).code (planOf i).mask = 0x0003 ↔ RaisesOverflow i := by
  cases planOf_cases i with
  | outOfRange _ noOverflow plan => simp [plan, noOverflow]
  | overflow _ tooBig plan => simp [plan, tooBig]
  | ok _ noOverflow frames plan => simp [plan, noOverflow]

/-- Settles O33: STATUS is the plan's, and the plan raises OUT_OF_RANGE for the operands of R131's table. -/
theorem outOfRangeExactly : Obligations.OutOfRangeExactly := by
  intro i s t hs h
  rw [status_of_exec hs h, planStatus_eq_outOfRange_iff]
  cases i <;> rfl

/-- Settles O34: STATUS is the plan's, and the plan raises OVERFLOW for the operands of R132. -/
theorem overflowExactly : Obligations.OverflowExactly := by
  intro i s t hs h
  rw [status_of_exec hs h, planStatus_eq_overflow_iff]
  cases i <;> rfl

/-! ## Errors emit no frame (R136) -/

/-- R136 for a plan: if its result is an error, it has no frames. -/
def ErrorsSilent (p : Plan) : Prop := packStatus p.code p.mask ≠ 0x0000 → p.frames = []

theorem errorsSilent_raiseError (c : ResultCode) : ErrorsSilent (raiseError c) := fun _ => rfl

theorem errorsSilent_planOf (i : Instr) : ErrorsSilent (planOf i) := by
  cases planOf_cases i with
  | outOfRange _ _ plan => exact plan ▸ errorsSilent_raiseError _
  | overflow _ _ plan => exact plan ▸ errorsSilent_raiseError _
  | ok _ _ frames plan => exact plan ▸ fun herr => absurd packStatus_ok herr

/-- Nothing has been seen on the channel from `s` to `t`. -/
def Silent (s t : State) : Prop := t.trace = s.trace ∧ t.channel = s.channel ∧ t.dev = s.dev

/-- An undisturbed command that ends in an error was run from a plan without frames. -/
theorem silent_takeCommand {s : State} (hq : nextEvent s = .quiet) {p : Plan} (hp : ErrorsSilent p) {len : Nat}
    {mark : Nat → Sequencer} (herr : (takeCommand len mark p s).status ≠ 0x0000) :
    Silent s (takeCommand len mark p s) := by
  rw [takeCommand_quiet len mark p s hq] at herr ⊢
  rw [(runPlan_completed len mark p s hq).status] at herr
  rw [runPlan_no_frames len mark p 0 s (hp herr), hq]
  exact ⟨rfl, rfl, rfl⟩

/-- Settles O32: a step that ends in an error has taken a command with an error's plan, an ILLEGAL one included, or only
waits for payload and has left STATUS as it was. -/
theorem errorsEmitNoFrame : Obligations.ErrorsEmitNoFrame := by
  intro s t ⟨hidle, hquiet⟩ h herr
  cases step_next h with
  | taken i _ _ run => subst run; exact silent_takeCommand hquiet (errorsSilent_planOf i) herr
  | resumed i k seq _ => rw [hidle] at seq; cases seq
  | illegal why len _ _ run => subst run; exact silent_takeCommand hquiet (errorsSilent_raiseError .illegal) herr
  | waits len _ _ run => subst run; exact ⟨rfl, rfl, rfl⟩
  | resetOnly m restart _ event _ => rw [hquiet] at event; cases event

end Sys2Proof.Machine
end

section
/-! SUPPORT. One step at a command boundary: from IDLE and from BUSY-waiting, by the words at `WP` and by the event (R21,
R158, R161, R162). -/

namespace Sys2Proof.Machine

/-! ## With no complete command on offer -/

theorem stopUnlessReset_of_reset {s : State} {m : Nat} {r : Restart} (he : nextEvent s = .reset m r) (why : Fault) :
    stopUnlessReset why s = .next (blockReset r (spendEvent 0 s)) := by
  simp only [stopUnlessReset, he]

theorem stopUnlessReset_of_no_reset {s : State} (he : ∀ m r, nextEvent s ≠ .reset m r) (why : Fault) :
    stopUnlessReset why s = .fault why := by
  unfold stopUnlessReset
  split
  · next m r h => exact absurd h (he m r)
  all_goals rfl

theorem waitUnlessReset_of_reset {s : State} {m : Nat} {r : Restart} (he : nextEvent s = .reset m r) :
    waitUnlessReset s = blockReset r (spendEvent 0 s) := by
  simp only [waitUnlessReset, he]

theorem waitUnlessReset_of_no_reset {s : State} (he : ∀ m r, nextEvent s ≠ .reset m r) :
    waitUnlessReset s = awaitPayload s := by
  rcases waitUnlessReset_cases s with hw | ⟨m, r, h, -⟩
  · exact hw
  · exact absurd h (he m r)

theorem step_idle_of_incomplete {s : State} {len : Nat} (hs : s.seq = .idle) (hf : fetch s = .incomplete len) :
    step s = .next (waitUnlessReset s) := by
  simp only [step, hs, hf]

theorem step_idle_of_exhausted {s : State} (hs : s.seq = .idle) (hf : fetch s = .exhausted) :
    step s = stopUnlessReset .runEnded s := by
  simp only [step, hs, hf]

theorem step_waiting_of_incomplete {s : State} {len : Nat} (hs : s.seq = .waiting) (hf : fetch s = .incomplete len) :
    step s = stopUnlessReset .incompleteCommand s := by
  simp only [step, hs, resumeWaiting, hf]

theorem step_waiting_of_exhausted {s : State} (hs : s.seq = .waiting) (hf : fetch s = .exhausted) :
    step s = stopUnlessReset .incompleteCommand s := by
  simp only [step, hs, resumeWaiting, hf]

/-- At or past the end of the stream there is no header (R21, R161). -/
theorem fetch_of_length_le {s : State} (h : s.stream.length ≤ s.wp) : fetch s = .exhausted := by
  rw [fetch, List.drop_of_length_le h]
  rfl

theorem fetch_of_missing_payload {s : State} {h : Word} {payload : List Word} (hdrop : s.stream.drop s.wp = h :: payload)
    (hlen : payload.length + 1 < lengthOfOpc (headerOpc h)) : fetch s = .incomplete (lengthOfOpc (headerOpc h)) := by
  rw [fetch, hdrop, decode_of_missing_payload hlen]

/-- IDLE with nothing on offer and no reset, the run has ended (R161). -/
theorem step_runEnded {s : State} (hs : Undisturbed s) (hend : s.stream.length ≤ s.wp) : step s = .fault .runEnded := by
  obtain ⟨hidle, hquiet⟩ := hs
  rw [step_idle_of_exhausted hidle (fetch_of_length_le hend)]
  exact stopUnlessReset_of_no_reset (by simp [hquiet]) _

/-! ## With a complete command on offer -/

/-- An ILLEGAL header is answered from IDLE and from BUSY-waiting alike (R66, R68). -/
theorem step_of_illegal {s : State} {why : IllegalReason} {len : Nat} (hs : s.seq = .idle ∨ s.seq = .waiting)
    (hf : fetch s = .illegal why len) : step s = .next (runIllegal len s) := by
  rcases hs with hs | hs
  · simp only [step, hs, hf]
  · simp only [step, hs, resumeWaiting, hf]

/-- With all its words there, a header is taken as a command of its length, an ILLEGAL one included, from IDLE and from
BUSY-waiting alike (R66, R68, R158). -/
theorem step_of_complete {s : State} {h : Word} {payload : List Word} (hdrop : s.stream.drop s.wp = h :: payload)
    (hlen : lengthOfOpc (headerOpc h) ≤ payload.length + 1) :
    ∃ mark p, ∀ q, q = .idle ∨ q = .waiting →
      step { s with seq := q } = .next (takeCommand (lengthOfOpc (headerOpc h)) mark p s) := by
  rcases decode_complete_cases hlen with ⟨-, why, hd⟩ | ⟨-, i, hd⟩
  · refine ⟨fun _ => .idle, raiseError .illegal, fun q hq => ?_⟩
    have hf : fetch { s with seq := q } = .illegal why (lengthOfOpc (headerOpc h)) := by rw [fetch, hdrop, hd]
    rw [step_of_illegal hq hf, runIllegal, takeCommand_setSeq]
  · refine ⟨Sequencer.busy i, planOf i, fun q hq => ?_⟩
    have hf : fetch { s with seq := q } = .command i := by rw [fetch, hdrop, hd]
    obtain ⟨-, -, -, hl, -⟩ := decode_command hd
    rw [step_of_command hq hf, takeCommand_setSeq, hl]

/-- A block at a command boundary never stops in front of a complete command (R158, R161). -/
theorem step_next_of_complete {s : State} {h : Word} {payload : List Word} (hs : s.seq = .idle ∨ s.seq = .waiting)
    (hdrop : s.stream.drop s.wp = h :: payload) (hlen : lengthOfOpc (headerOpc h) ≤ payload.length + 1) :
    ∃ t, step s = .next t := by
  obtain ⟨mark, p, hstep⟩ := step_of_complete hdrop hlen
  exact ⟨_, hstep s.seq hs⟩

/-- Late payload is awaited (R158). -/
theorem takeCommand_late {s : State} {len : Nat} (he : nextEvent s = .late) (hlen : 1 < len) (mark : Nat → Sequencer)
    (p : Plan) : takeCommand len mark p s = awaitPayload s :=
  if_pos ((payloadLate_iff len s).2 ⟨he, hlen⟩)

end Sys2Proof.Machine
end

section
/-! PROOFS. The ends of a run (O27) and waiting for payload (O49), from the step at a command boundary. -/

namespace Sys2Proof.Machine

/-- Settles O27: the stops of the two boundaries without a complete command, and no stop with one. -/
theorem incompleteIsStuckAndExhaustedEnds : Obligations.IncompleteIsStuckAndExhaustedEnds := by
  refine ⟨fun s hs hend => step_runEnded hs hend, fun s h payload hs hno hdrop hshort => ?_,
    fun s h payload hs hdrop hlen => step_next_of_complete hs hdrop hlen⟩
  rw [step_waiting_of_incomplete hs (fetch_of_missing_payload hdrop hshort), stopUnlessReset_of_no_reset hno]

/-- Settles O49: both ways to lack payload lead to `awaitPayload`, and a complete command is taken alike from IDLE and from
BUSY-waiting. -/
theorem payloadIsAwaitedBusy : Obligations.PayloadIsAwaitedBusy := by
  refine ⟨fun s h payload hdrop hlong hcase => ?_, fun s h payload hs hdrop hlen => ?_⟩
  · have hstep : step s = .next (awaitPayload s) := by
      rcases hcase with ⟨hs, hshort, hno⟩ | ⟨hs, hlen, hlate⟩
      · rw [step_idle_of_incomplete hs (fetch_of_missing_payload hdrop hshort), waitUnlessReset_of_no_reset hno]
      · obtain ⟨mark, p, hstep⟩ := step_of_complete hdrop hlen
        exact takeCommand_late hlate hlong mark p ▸ hstep s.seq hs
    exact ⟨_, hstep, rfl, rfl, rfl, rfl, rfl, rfl, rfl, rfl⟩
  · obtain ⟨mark, p, hstep⟩ := step_of_complete hdrop hlen
    exact (hstep s.seq (.inr hs)).trans (hstep .idle (.inl rfl)).symm

end Sys2Proof.Machine
end

section
/-! PROOFS. Block resets: what one leaves (O2), one before the next command is taken (O3), and one in the middle of a
command (O42). -/

namespace Sys2Proof.Machine

/-- Settles O2: `blockReset` writes three fields, and from IDLE every command is accepted. -/
theorem blockResetSetsStatusAndIdle : Obligations.BlockResetSetsStatusAndIdle := by
  refine ⟨fun r s => ⟨rfl, rfl, ?_, rfl, rfl, rfl, rfl, rfl, fun i => ⟨_, exec_idle i _ rfl⟩⟩, fun a => rfl⟩
  cases r <;> rfl

/-- A reset uses up its event. -/
theorem spendEvent_env_reset {s : State} {m : Nat} {r : Restart} (he : nextEvent s = .reset m r) (n : Nat) :
    (spendEvent n s).env = s.env.tail := by
  unfold nextEvent at he
  unfold spendEvent
  split at he <;> simp_all

/-- A reset abandons the command after the frames it lets out (R152). -/
theorem runPlan_reset {s : State} {m : Nat} {r : Restart} (he : nextEvent s = .reset m r) (len : Nat)
    (mark : Nat → Sequencer) (p : Plan) (k : Nat) :
    runPlan len mark p k s = blockReset r
      (spendEvent (min m (p.frames.drop k).length) (emitAll ((p.frames.drop k).take m) s)) := by
  simp only [runPlan, he, framesBefore, ← List.take_eq_take_min]

theorem takeCommand_reset {s : State} {m : Nat} {r : Restart} (he : nextEvent s = .reset m r) (len : Nat)
    (mark : Nat → Sequencer) (p : Plan) :
    takeCommand len mark p s = blockReset r (spendEvent (min m p.frames.length) (emitAll (p.frames.take m) s)) := by
  rw [takeCommand_run _ _ _ _ (payloadLate_eq_false (by simp [he])), runPlan_reset he]
  rfl

/-- A reset that comes before any frame is the whole step of a block at a command boundary, whatever is on offer (R150,
R162). -/
theorem step_of_reset {s : State} {r : Restart} (hs : s.seq = .idle ∨ s.seq = .waiting)
    (he : nextEvent s = .reset 0 r) : step s = .next (blockReset r (spendEvent 0 s)) := by
  have htake (len : Nat) (mark : Nat → Sequencer) (p : Plan) :
      takeCommand len mark p s = blockReset r (spendEvent 0 s) := by
    simpa using takeCommand_reset he len mark p
  cases hf : fetch s with
  | command i => rw [step_of_command hs hf, htake]
  | illegal why len => rw [step_of_illegal hs hf, runIllegal, htake]
  | incomplete len =>
    rcases hs with hs | hs
    · rw [step_idle_of_incomplete hs hf, waitUnlessReset_of_reset he]
    · rw [step_waiting_of_incomplete hs hf, stopUnlessReset_of_reset he]
  | exhausted =>
    rcases hs with hs | hs
    · rw [step_idle_of_exhausted hs hf, stopUnlessReset_of_reset he]
    · rw [step_waiting_of_exhausted hs hf, stopUnlessReset_of_reset he]

/-- Settles O3: the step is `blockReset`. -/
theorem idleBlockCanAlwaysBeReset : Obligations.IdleBlockCanAlwaysBeReset := by
  intro s r hs he
  refine ⟨_, step_of_reset hs he, rfl, rfl, rfl, rfl, rfl, rfl, spendEvent_env_reset he 0, ?_⟩
  cases r <;> rfl

/-! ## In the middle of a command -/

/-- The frames a command completes with are its plan's. -/
theorem frames_of_completes {i : Instr} {len : Nat} {frames : List Frame} {st : BitVec 16} {s : State}
    (hs : Undisturbed s) (h : Completes i len frames st s) : frames = (planOf i).frames := by
  obtain ⟨t, ht, hdone⟩ := h
  obtain ⟨t', ht', hplan⟩ := exec_completes i s hs
  obtain rfl : t = t' := Host.Outcome.next.inj (ht.symm.trans ht')
  exact List.append_cancel_left (hdone.trace.symm.trans hplan.trace)

/-- What a reset that cuts a command leaves: these frames stay out, and the block is IDLE with STATUS 0x0000 (R150, R152). -/
def AbandonedAfter (fs : List Frame) (r : Restart) (later : List EnvEvent) (s t : State) : Prop :=
  t.trace = s.trace ++ fs ∧ t.channel = s.channel ++ fs.flatMap frameOps ∧
    (∀ a, t.dev.read a = imageAfter fs s.dev a) ∧ t.status = 0x0000 ∧ t.seq = .idle ∧ t.stream = s.stream ∧
    t.env = later ∧ t.wp = (match r with | .fromStart => 0 | .afterLastCommand => s.wp)

/-- From frame `k` on, a reset after `m` more frames leaves exactly those. -/
theorem abandonedAfter_runPlan (len : Nat) (mark : Nat → Sequencer) (p : Plan) (k m : Nat) (r : Restart)
    (later : List EnvEvent) (s : State) :
    AbandonedAfter ((p.frames.drop k).take m) r later s (runPlan len mark p k { s with env := .reset m r :: later }) := by
  rw [runPlan_reset (s := { s with env := .reset m r :: later }) rfl]
  refine ⟨emitAll_trace .., emitAll_channel .., emitAll_dev_read _ _, rfl, rfl, emitAll_stream .., ?_, ?_⟩
  · rw [emitAll_eq]
    rfl
  · cases r with
    | fromStart => rfl
    | afterLastCommand => exact emitAll_wp ..

/-- Settles O42: `exec` from IDLE runs the plan from its first frame, `step` from BUSY goes on with it. -/
theorem resetAbandonsAfterAnyFrame : Obligations.ResetAbandonsAfterAnyFrame := by
  intro i len frames st s m r later hdone
  obtain rfl : frames = (planOf i).frames := frames_of_completes ⟨rfl, rfl⟩ hdone
  refine ⟨fun hs => ?_, fun k hs => ?_⟩
  · refine ⟨_, exec_idle i _ hs, ?_⟩
    rw [takeCommand_run _ _ _ _ rfl]
    exact abandonedAfter_runPlan _ _ (planOf i) 0 m r later s
  · refine ⟨_, ?_, abandonedAfter_runPlan (commandLength i) (Sequencer.busy i) (planOf i) k m r later s⟩
    simp only [step, hs]
    rfl

end Sys2Proof.Machine
end

section
/-! PROOFS. A transfer that never completes blocks the block for good (O43, R159). -/

namespace Sys2Proof.Machine

/-- BUSY with a stalled transfer there is no step (R159). -/
theorem step_stalled {s : State} {i : Instr} {k : Nat} (hs : s.seq = .busy i k) (he : nextEvent s = .stall 0)
    (hk : k < (planOf i).frames.length) : step s = .fault .stalledTransfer := by
  simp [step, hs, resume, isStalled, he, hk]

/-- A transfer that stalls later does not stop the block yet: it goes on with its command. -/
theorem step_busy_of_stall_succ {s : State} {i : Instr} {k m : Nat} (hs : s.seq = .busy i k)
    (he : nextEvent s = .stall (m + 1)) :
    step s = .next (runPlan (commandLength i) (Sequencer.busy i) (planOf i) k s) := by
  simp [step, hs, resume, isStalled, he]

/-- A stall before the last remaining frame leaves the block BUSY, and blocks the next transfer. -/
theorem runPlan_stall_more (len : Nat) (mark : Nat → Sequencer) {p : Plan} {k m : Nat} (later : List EnvEvent) (s : State)
    (hm : k + m < p.frames.length) :
    runPlan len mark p k { s with env := .stall m :: later } =
      { emitAll ((p.frames.drop k).take m) s with seq := mark (k + m), env := .stall 0 :: later } := by
  have hdrop : m < (p.frames.drop k).length := by rw [List.length_drop]; omega
  have he : nextEvent { s with env := .stall m :: later } = .stall m := rfl
  simp only [runPlan, he, framesBefore, Nat.min_eq_left hdrop.le, if_pos hdrop, emitAll_eq, spendEvent, Nat.sub_self]

/-- What a stall leaves of a command with `n` frames out: these frames are out, the block is BUSY for good, and STATUS and
`WP` are as before (R159). -/
def BlockedAt (i : Instr) (n : Nat) (fs : List Frame) (s t : State) : Prop :=
  t.trace = s.trace ++ fs ∧ t.seq = .busy i n ∧ t.status = s.status ∧ t.wp = s.wp ∧ step t = .fault .stalledTransfer

theorem blockedAt_runPlan {i : Instr} {k m : Nat} (later : List EnvEvent) (s : State)
    (hm : k + m < (planOf i).frames.length) :
    BlockedAt i (k + m) (((planOf i).frames.drop k).take m) s
      (runPlan (commandLength i) (Sequencer.busy i) (planOf i) k { s with env := .stall m :: later }) := by
  rw [runPlan_stall_more _ _ later s hm]
  exact ⟨emitAll_trace _ s, rfl, emitAll_status _ s, emitAll_wp _ s, step_stalled rfl rfl hm⟩

/-- Settles O43: `exec` from IDLE and `step` from BUSY run the plan up to the stalled transfer. -/
theorem stalledTransferBlocksForever : Obligations.StalledTransferBlocksForever := by
  intro i len frames st s m later hdone
  obtain rfl : frames = (planOf i).frames := frames_of_completes ⟨rfl, rfl⟩ hdone
  refine ⟨fun hs hm => ?_, fun k hs hm => ?_⟩
  · refine ⟨_, exec_idle i _ hs, ?_⟩
    rw [takeCommand_run _ _ _ _ rfl]
    have hblocked := blockedAt_runPlan (k := 0) later s (by rwa [Nat.zero_add])
    rwa [Nat.zero_add] at hblocked
  · cases m with
    | zero => exact step_stalled hs rfl hm
    | succ m => exact ⟨_, step_busy_of_stall_succ hs rfl, blockedAt_runPlan later s hm⟩

end Sys2Proof.Machine
end

section
/-! PROOFS. Over complete commands an undisturbed run ends (O48, R158, R161): each step moves `WP` to the next header. -/

namespace Sys2Proof.Machine

/-- Payload words that are to be skipped are there, and complete commands follow them. -/
theorem completeAfter_drop {n : Nat} {ws : List Word} (h : completeAfter n ws = true) :
    n ≤ ws.length ∧ CompleteCommands (ws.drop n) := by
  induction n generalizing ws with
  | zero => exact ⟨Nat.zero_le _, h⟩
  | succ n ih =>
    cases ws with
    | nil => cases h
    | cons w later =>
      obtain ⟨hle, hrest⟩ := ih (ws := later) h
      exact ⟨Nat.succ_le_succ hle, hrest⟩

/-- A stream of complete commands starts with one, and complete commands follow it. -/
theorem CompleteCommands.first {h : Word} {later : List Word} (hc : CompleteCommands (h :: later)) :
    lengthOfOpc (headerOpc h) ≤ later.length + 1 ∧
      CompleteCommands ((h :: later).drop (lengthOfOpc (headerOpc h))) := by
  obtain ⟨hle, hrest⟩ := completeAfter_drop (n := lengthOfOpc (headerOpc h) - 1) (ws := later) hc
  obtain ⟨n, hn⟩ := Nat.exists_eq_succ_of_ne_zero (lengthOfOpc_pos (headerOpc h)).ne'
  rw [hn] at hle hrest ⊢
  exact ⟨Nat.succ_le_succ hle, hrest⟩

/-- IDLE at a header from which complete commands follow to the end of the stream, and nothing scheduled (R158). -/
structure RunsClean (s : State) : Prop where
  seq : s.seq = .idle
  env : s.env = []
  wp : s.wp ≤ s.stream.length
  complete : CompleteCommands (s.stream.drop s.wp)

theorem RunsClean.undisturbed {s : State} (hs : RunsClean s) : Undisturbed s :=
  ⟨hs.seq, by simp [nextEvent, hs.env]⟩

/-- Before the end, a step takes the next command and leaves the block in front of the one after it. -/
theorem RunsClean.step_next {s : State} (hs : RunsClean s) (hlt : s.wp < s.stream.length) :
    ∃ t, step s = .next t ∧ RunsClean t ∧ t.stream = s.stream ∧ s.wp < t.wp := by
  have hdrop := List.drop_eq_getElem_cons hlt
  have hc := hs.complete
  rw [hdrop] at hc
  obtain ⟨hlen, hrest⟩ := hc.first
  obtain ⟨t, ht⟩ := step_next_of_complete (.inl hs.seq) hdrop hlen
  obtain ⟨h, later, hdrop', hwp, hstream, hmoved⟩ := wordPointerMovesByTheCommandLength s t hs.undisturbed ht
  obtain ⟨rfl, rfl⟩ := List.cons.inj (hdrop'.symm.trans hdrop)
  rw [if_pos hlen] at hmoved
  obtain ⟨hmoved, hidle⟩ := hmoved
  have henv : t.env = [] := by rw [undisturbedStepUsesOneEvent s t hs.undisturbed ht, hs.env, List.tail_nil]
  refine ⟨t, ht, ⟨hidle, henv, hstream ▸ hwp, ?_⟩, hstream, ?_⟩
  · rw [hstream, hmoved, ← List.drop_drop, hdrop]
    exact hrest
  · rw [hmoved]
    exact Nat.lt_add_of_pos_right (lengthOfOpc_pos _)

/-- The run reaches the end of the stream within one step per word. -/
theorem RunsClean.reaches_end {s : State} (hs : RunsClean s) :
    ∃ n t, n ≤ s.stream.length - s.wp ∧ Sys2Proof.core.run n s = .next t ∧ RunsClean t ∧ t.wp = s.stream.length ∧
      t.stream = s.stream := by
  rcases hs.wp.eq_or_lt with hend | hlt
  · exact ⟨0, s, Nat.zero_le _, rfl, hs, hend, rfl⟩
  · obtain ⟨t, ht, hclean, hstream, hmoved⟩ := hs.step_next hlt
    obtain ⟨n, u, hn, hrun, hu, hwp, hsame⟩ := hclean.reaches_end
    rw [hstream] at hn hwp hsame
    exact ⟨n + 1, u, by omega, (run_succ_of_next ht n).trans hrun, hu, hwp, hsame⟩
termination_by s.stream.length - s.wp
decreasing_by rw [hstream]; omega

/-- Settles O48: the run reaches the end of the stream, where the block is IDLE and nothing is on offer. -/
theorem runsOverCompleteCommandsEnd : Obligations.RunsOverCompleteCommandsEnd := by
  intro s hseq henv hwp hc
  obtain ⟨n, t, hn, hrun, ht, hend, hstream⟩ := RunsClean.reaches_end ⟨hseq, henv, hwp, hc⟩
  rw [← hstream] at hend
  exact ⟨n, t, hn, hrun, ⟨ht.seq, hend⟩, hstream, step_runEnded ht.undisturbed hend.ge⟩

end Sys2Proof.Machine
end

section
/-! PROOFS. The number of frames of each command on success (O39, R160): the length of the one plan that raises no error. -/

namespace Sys2Proof.Machine

/-- R160's table. -/
def frameCount (i : Instr) : Nat :=
  match i with
  | .displayByte _ _ | .displayVector _ _ | .displayBcdDigit _ _ => 1
  | .displayMatrix _ => 8
  | .displayBcdInt value segments => if value < 0 then segments.toNat + 1 else segments.toNat
  | .displayFixed _ _ segments => segments.toNat
  | .setDecodeMode _ | .setIntensity _ | .setScanLimit _ | .setPower _ | .setDisplayTest _ => 1
  | .clear => 8
  | .init .none => 0
  | .init .raw => 11
  | .init .bcd => 12

/-- A command with R131's check alone in front of its frames emits all of them in range. -/
theorem length_frames_of_rangeCheck {i : Instr} {c : Prop} [Decidable c] {frames : List Frame}
    (hplan : planOf i = if c then raiseError .outOfRange else emitThenOk frames) (hin : ¬ c) :
    (planOf i).frames.length = frames.length := by
  rw [hplan, if_neg hin, emitThenOk_frames]

/-- One frame per segment, and one more for the sign over digit 0 (R92). -/
theorem length_bcdIntFrames (order : BcdIntOrder) (value : Int) (n : Nat) :
    (bcdIntFrames order value n).length = if value < 0 then n + 1 else n := by
  by_cases hneg : value < 0 <;> simp [bcdIntFrames, hneg]

/-- One frame per segment: the sign takes the place of a digit (R102). -/
theorem length_fixedFrames (p : Params) (scaled : Int) (m : Nat) {i n : Nat} (hn : 1 ≤ n) :
    (digitFrames m (fixedDigits scaled n) ++ signFrames p i (decide (scaled < 0))).length = n := by
  by_cases hneg : scaled < 0
  · simp [digitFrames, signFrames, fixedDigits_of_neg hneg, hneg, Nat.sub_add_cancel hn]
  · simp [digitFrames, signFrames, fixedDigits_of_nonneg (Int.not_lt.1 hneg), hneg]

theorem length_frames_displayFixed {scaled : Int} {decimals segments : Byte}
    (hin : ¬ RaisesOutOfRange (.displayFixed scaled decimals segments))
    (hfit : ¬ RaisesOverflow (.displayFixed scaled decimals segments)) :
    (planOf (.displayFixed scaled decimals segments)).frames.length = segments.toNat := by
  have hvalid := (fixedOperandsValid_iff_not_raisesOutOfRange scaled decimals segments).2 hin
  obtain ⟨-, htwo, -, -⟩ := (fixedOperandsValid_iff _ _).1 hvalid
  have hlt := Nat.lt_of_not_le fun hbig => hfit ((raisesOverflow_displayFixed_iff ..).2 ⟨hvalid, hbig⟩)
  rw [planOf_displayFixed_of_inRange hvalid hlt]
  exact length_fixedFrames _ scaled _ (by omega)

/-- A command that raises no error emits as many frames as R160's table says. -/
theorem length_frames_of_no_error {i : Instr} (hin : ¬ RaisesOutOfRange i) (hfit : ¬ RaisesOverflow i) :
    (planOf i).frames.length = frameCount i := by
  cases i with
  | displayByte | displayVector | displayBcdDigit =>
    refine (length_frames_of_rangeCheck rfl ?_).trans rfl
    exact hin
  | displayMatrix m => rw [planOf_displayMatrix]; rfl
  | displayBcdInt value segments =>
    rw [RaisesOutOfRange] at hin
    have hplan : planOf (.displayBcdInt value segments) = emitThenOk (bcdIntFrames .lsdAt0 value segments.toNat) :=
      planDisplayBcdInt_eq .lsdAt0 value (by omega) (by omega)
    rw [hplan]
    exact length_bcdIntFrames ..
  | displayFixed scaled decimals segments => exact length_frames_displayFixed hin hfit
  | setDecodeMode | setIntensity | setScanLimit | setPower | setDisplayTest | clear => rfl
  | init mode => cases mode <;> rfl

/-- Settles O39: STATUS 0x0000 is the result of a plan that raises no error, and its frames are those added. -/
theorem frameCountsPerCommand : Obligations.FrameCountsPerCommand := by
  intro i s t hs h hok
  have hstatus := (status_of_exec hs h).symm.trans hok
  have hin : ¬ RaisesOutOfRange i := by rw [← planStatus_eq_outOfRange_iff, hstatus]; decide
  have hfit : ¬ RaisesOverflow i := by rw [← planStatus_eq_overflow_iff, hstatus]; decide
  obtain ⟨t', ht', hdone⟩ := exec_completes i s hs
  obtain rfl : t = t' := Host.Outcome.next.inj (h.symm.trans ht')
  rw [hdone.trace, List.length_append, length_frames_of_no_error hin hfit]
  cases i with
  | init mode => cases mode <;> rfl
  | _ => rfl

end Sys2Proof.Machine
end
